-- ==== Sys2Proof/Word.lean ====
section
/-! DEFINITION. The word types of the CORE (00_scope.md R15, R16). -/

namespace Sys2Proof

/-- A `u8` of R16: a byte of memory, of the instruction stream or of an 8-bit register alias. -/
abbrev Byte := BitVec 8

/-- A `u32` of R16 (XLEN = 32): a general register, EIP, an effective address. -/
abbrev Word := BitVec 32

end Sys2Proof
end

