-- ==== Sys2Proof/Syntax.lean ====
section
/-! DEFINITION. The instructions as syntax: registers, operands and one constructor for each of the 37 rows of
spec/opcode_table.json (30_encoding.md R89). -/

namespace Sys2Proof

/-- The eight general registers, in the index order 0 to 7 of 10_state.md R21. -/
inductive Reg where
  | eax | ecx | edx | ebx | esp | ebp | esi | edi
deriving DecidableEq, Repr

/-- The eight 8-bit aliases, in the index order 0 to 7 of 10_state.md R23 (numbering: log 17). -/
inductive Reg8 where
  | al | cl | dl | bl | ah | ch | dh | bh
deriving DecidableEq, Repr

/-- The memory forms of the ModRM group (30_encoding.md R84), one constructor per encoding, so that redundant encodings (R94)
stay different terms. -/
inductive MemForm where
  /-- `mod == 0`, `rm == 5`: the absolute address `disp32`. -/
  | abs (disp : Word)
  /-- `mod == 0`, `rm` not 4 or 5: memory at the base register. -/
  | base (r : Reg)
  /-- `mod == 1`, `rm` not 4: base plus the sign-extended `disp8`. -/
  | baseDisp8 (r : Reg) (disp : Byte)
  /-- `mod == 2`, `rm` not 4: base plus `disp32`. -/
  | baseDisp32 (r : Reg) (disp : Word)
deriving DecidableEq, Repr

/-- A 32-bit `rm` operand: a register when `mod == 3`, else memory (40_execution_core.md R127). -/
inductive RM32 where
  | reg (r : Reg)
  | mem (m : MemForm)
deriving DecidableEq, Repr

/-- An 8-bit `rm` operand: an alias when `mod == 3`, else memory (40_execution_core.md R129). -/
inductive RM8 where
  | reg (r : Reg8)
  | mem (m : MemForm)
deriving DecidableEq, Repr

/-- One constructor per row of spec/opcode_table.json. Operands stand destination first (R97). Immediates and displacements are
the bytes of the encoding; the meanings extend them as their rules say (R86). -/
inductive Instr where
  /-- `01 M`, R151. -/
  | addRm32R32 (dst : RM32) (src : Reg)
  /-- `3B M`, R152. -/
  | cmpR32Rm32 (a : Reg) (b : RM32)
  /-- `3C ib`, R153. -/
  | cmpAlImm8 (imm : Byte)
  /-- `3D id`, R154. -/
  | cmpEaxImm32 (imm : Word)
  /-- `40+r`, R155. -/
  | incR32 (r : Reg)
  /-- `50+r`, R190. -/
  | pushR32 (r : Reg)
  /-- `58+r`, R191. -/
  | popR32 (r : Reg)
  /-- `68 id`, R192. -/
  | pushImm32 (imm : Word)
  /-- `6A ib`, R193. -/
  | pushImm8 (imm : Byte)
  /-- `70 cb`, R211. -/
  | jo (rel : Byte)
  /-- `71 cb`, R212. -/
  | jno (rel : Byte)
  /-- `72 cb`, R213. -/
  | jc (rel : Byte)
  /-- `73 cb`, R214. -/
  | jnc (rel : Byte)
  /-- `74 cb`, R215. -/
  | jz (rel : Byte)
  /-- `75 cb`, R216. -/
  | jnz (rel : Byte)
  /-- `78 cb`, R217. -/
  | js (rel : Byte)
  /-- `79 cb`, R218. -/
  | jns (rel : Byte)
  /-- `7C cb`, R219. -/
  | jl (rel : Byte)
  /-- `7E cb`, R220. -/
  | jle (rel : Byte)
  /-- `83 /0 M ib`, R156. -/
  | addRm32Imm8 (dst : RM32) (imm : Byte)
  /-- `83 /5 M ib`, R157. -/
  | subRm32Imm8 (dst : RM32) (imm : Byte)
  /-- `88 M`, R170. -/
  | movRm8R8 (dst : RM8) (src : Reg8)
  /-- `89 M`, R171. -/
  | movRm32R32 (dst : RM32) (src : Reg)
  /-- `8A M`, R172. -/
  | movR8Rm8 (dst : Reg8) (src : RM8)
  /-- `8B M`, R173. -/
  | movR32Rm32 (dst : Reg) (src : RM32)
  /-- `B0+j ib`, R174. -/
  | movR8Imm8 (dst : Reg8) (imm : Byte)
  /-- `B8+r id`, R175. -/
  | movR32Imm32 (dst : Reg) (imm : Word)
  /-- `C3`, R224. -/
  | ret
  /-- `C7 M id`, R176; `ext` is the ModRM `reg` field, which the machine ignores (R88, log 24). -/
  | movRm32Imm32 (ext : BitVec 3) (dst : RM32) (imm : Word)
  /-- `C9`, R194. -/
  | leave
  /-- `CD ib`, R240. -/
  | int (vector : Byte)
  /-- `E8 cd`, R223. -/
  | callRel32 (rel : Word)
  /-- `E9 cd`, R221. -/
  | jmpRel32 (rel : Word)
  /-- `EB cb`, R222. -/
  | jmpRel8 (rel : Byte)
  /-- `EC`, R242. -/
  | inAlDx
  /-- `EE`, R243. -/
  | outDxAl
  /-- `FF /0 M`, R158. -/
  | incRm32 (dst : RM32)
deriving DecidableEq, Repr

end Sys2Proof
end

