-- ==== Sys2Proof/WellFormed.lean ====
section
/-! DEFINITION. Which terms of `Instr` have an encoding: a base register is never ESP, and never EBP without a displacement
(30_encoding.md R84, R85). -/

namespace Sys2Proof

/-- The memory forms that a ModRM byte can name. `rm == 4` with `mod != 3` is the SIB form, which halts (R85), and `rm == 5` with
`mod == 0` is the absolute form (R84). -/
def MemForm.wellFormed : MemForm → Bool
  | .abs _ => true
  | .base r => r != .esp && r != .ebp
  | .baseDisp8 r _ => r != .esp
  | .baseDisp32 r _ => r != .esp

def RM32.wellFormed : RM32 → Bool
  | .reg _ => true
  | .mem m => m.wellFormed

def RM8.wellFormed : RM8 → Bool
  | .reg _ => true
  | .mem m => m.wellFormed

/-- An instruction is well formed when its memory operand, if it has one, has an encoding; every other field takes every value
of its type. -/
def Instr.wellFormed : Instr → Bool
  | .addRm32R32 dst _ => dst.wellFormed
  | .cmpR32Rm32 _ b => b.wellFormed
  | .cmpAlImm8 _ => true
  | .cmpEaxImm32 _ => true
  | .incR32 _ => true
  | .pushR32 _ => true
  | .popR32 _ => true
  | .pushImm32 _ => true
  | .pushImm8 _ => true
  | .jo _ => true
  | .jno _ => true
  | .jc _ => true
  | .jnc _ => true
  | .jz _ => true
  | .jnz _ => true
  | .js _ => true
  | .jns _ => true
  | .jl _ => true
  | .jle _ => true
  | .addRm32Imm8 dst _ => dst.wellFormed
  | .subRm32Imm8 dst _ => dst.wellFormed
  | .movRm8R8 dst _ => dst.wellFormed
  | .movRm32R32 dst _ => dst.wellFormed
  | .movR8Rm8 _ src => src.wellFormed
  | .movR32Rm32 _ src => src.wellFormed
  | .movR8Imm8 _ _ => true
  | .movR32Imm32 _ _ => true
  | .ret => true
  | .movRm32Imm32 _ dst _ => dst.wellFormed
  | .leave => true
  | .int _ => true
  | .callRel32 _ => true
  | .jmpRel32 _ => true
  | .jmpRel8 _ => true
  | .inAlDx => true
  | .outDxAl => true
  | .incRm32 dst => dst.wellFormed

end Sys2Proof
end

