-- ==== Sys2Proof/Decode.lean ====
section
/-! DEFINITION. Decoding instruction bytes and encoding instructions (30_encoding.md R80 to R98, 40_execution_core.md R121, R124,
R125), with the byte-order and register-number helpers both use. -/

namespace Sys2Proof

/-! ## Byte order and register numbers -/

/-- Little-endian assembly of four bytes, lowest address first (R51, R52, R86). -/
def le32 (b0 b1 b2 b3 : Byte) : Word := b3 ++ b2 ++ b1 ++ b0

/-- Byte `k` of a word, byte 0 the least significant (R51). -/
def byteOf (w : Word) (k : Nat) : Byte := w.extractLsb' (8 * k) 8

/-- The four bytes of a word, lowest address first (R51, R52). -/
def leBytes (w : Word) : List Byte := [byteOf w 0, byteOf w 1, byteOf w 2, byteOf w 3]

/-- The 3-bit number of a general register (R21). -/
def Reg.code : Reg → BitVec 3
  | .eax => 0#3 | .ecx => 1#3 | .edx => 2#3 | .ebx => 3#3
  | .esp => 4#3 | .ebp => 5#3 | .esi => 6#3 | .edi => 7#3

/-- The general register of a 3-bit field (R21, R83). -/
def Reg.ofCode (c : BitVec 3) : Reg :=
  match c.toNat with
  | 0 => .eax | 1 => .ecx | 2 => .edx | 3 => .ebx
  | 4 => .esp | 5 => .ebp | 6 => .esi | _ => .edi

/-- The 3-bit number of an 8-bit alias (R23). -/
def Reg8.code : Reg8 → BitVec 3
  | .al => 0#3 | .cl => 1#3 | .dl => 2#3 | .bl => 3#3
  | .ah => 4#3 | .ch => 5#3 | .dh => 6#3 | .bh => 7#3

/-- The 8-bit alias of a 3-bit field (R23, R83). -/
def Reg8.ofCode (c : BitVec 3) : Reg8 :=
  match c.toNat with
  | 0 => .al | 1 => .cl | 2 => .dl | 3 => .bl
  | 4 => .ah | 5 => .ch | 6 => .dh | _ => .bh

/-! ## What decoding can report -/

/-- The ways a byte sequence is no instruction, in the payloads of 60_exceptions.md R261. -/
inductive DecodeError where
  /-- A field that starts at this offset from the opcode byte does not lie within memory (R56, R124). -/
  | outOfBytes (off : Nat)
  /-- A leading byte without a dispatch entry (R91). -/
  | unmappedOpcode (b : Byte)
  /-- A selector that names no operation of the group (R92). -/
  | unmappedGroup (g : Byte) (n : BitVec 3)
  /-- A SIB form (R85). -/
  | sibForm (m : Byte)
  /-- An index outside 0 to 7 (R26); no instruction stream reaches it (log 30). -/
  | badRegisterIndex (i : Nat)
deriving DecidableEq, Repr

/-- The checked conversion of `opcode - base` to a register index (R26, R82). -/
def regOfIndex (i : Nat) : Except DecodeError Reg :=
  if i < 8 then .ok (Reg.ofCode (BitVec.ofNat 3 i)) else .error (.badRegisterIndex i)

/-- The checked conversion of `opcode - 0xB0` to an alias index (R26, R82). -/
def reg8OfIndex (i : Nat) : Except DecodeError Reg8 :=
  if i < 8 then .ok (Reg8.ofCode (BitVec.ofNat 3 i)) else .error (.badRegisterIndex i)

/-! ## Fields of the instruction stream -/

/-- An 8-bit field at offset `off` (Code8 of R124). -/
def take8 (off : Nat) : List Byte → Except DecodeError (Byte × List Byte)
  | b :: rest => .ok (b, rest)
  | [] => .error (.outOfBytes off)

/-- A 32-bit field at offset `off`: all four bytes or none (Code32 of R124, R56). -/
def take32 (off : Nat) : List Byte → Except DecodeError (Word × List Byte)
  | b0 :: b1 :: b2 :: b3 :: rest => .ok (le32 b0 b1 b2 b3, rest)
  | _ => .error (.outOfBytes off)

/-- What the `mod` and `rm` fields name: a register number when `mod == 3`, else a memory form (R83, R84). -/
inductive RmLoc where
  | direct (rm : BitVec 3)
  | mem (m : MemForm)
deriving DecidableEq, Repr

/-- The decoded ModRM group (R125): the `reg` field and the `rm` operand with its displacement. -/
structure ModRM where
  reg : BitVec 3
  loc : RmLoc
deriving DecidableEq, Repr

/-- The `rm` field as a 32-bit operand (R127). -/
def RmLoc.rm32 : RmLoc → RM32
  | .direct c => .reg (Reg.ofCode c)
  | .mem m => .mem m

/-- The `rm` field as an 8-bit operand (R129). -/
def RmLoc.rm8 : RmLoc → RM8
  | .direct c => .reg (Reg8.ofCode c)
  | .mem m => .mem m

/-- `mlen` of R84: the bytes of the ModRM byte and its displacement. -/
def MemForm.mlen : MemForm → Nat
  | .abs _ => 5
  | .base _ => 1
  | .baseDisp8 _ _ => 2
  | .baseDisp32 _ _ => 5

def RmLoc.mlen : RmLoc → Nat
  | .direct _ => 1
  | .mem m => m.mlen

def RM32.mlen : RM32 → Nat
  | .reg _ => 1
  | .mem m => m.mlen

def RM8.mlen : RM8 → Nat
  | .reg _ => 1
  | .mem m => m.mlen

/-- The memory operand of a ModRM byte with `mod != 3` and `rm != 4`, with its displacement read from the bytes after it, which
start at offset 2 (R84, R125). -/
def takeMem (mod : BitVec 2) (rm : BitVec 3) (rest : List Byte) : Except DecodeError (MemForm × List Byte) :=
  if mod = 0#2 then
    if rm = 5#3 then do
      let (d, rest) ← take32 2 rest
      .ok (.abs d, rest)
    else .ok (.base (Reg.ofCode rm), rest)
  else if mod = 1#2 then do
    let (d, rest) ← take8 2 rest
    .ok (.baseDisp8 (Reg.ofCode rm) d, rest)
  else do
    let (d, rest) ← take32 2 rest
    .ok (.baseDisp32 (Reg.ofCode rm) d, rest)

/-- DecodeModRM of R125, at offset 1: the SIB test comes before the displacement is read. -/
def takeModRM (bs : List Byte) : Except DecodeError (ModRM × List Byte) := do
  let (m, rest) ← take8 1 bs
  let mod := m.extractLsb' 6 2
  let reg := m.extractLsb' 3 3
  let rm := m.extractLsb' 0 3
  if mod = 3#2 then .ok (⟨reg, .direct rm⟩, rest)
  else if rm = 4#3 then .error (.sibForm m)
  else do
    let (f, rest) ← takeMem mod rm rest
    .ok (⟨reg, .mem f⟩, rest)

/-! ## The dispatch table -/

/-- What a leading byte selects: an instruction, or one of the two groups (R87, R89). -/
inductive Handler where
  | addRm32R32 | cmpR32Rm32 | cmpAlImm8 | cmpEaxImm32 | incR32 | pushR32 | popR32 | pushImm32 | pushImm8
  | jo | jno | jc | jnc | jz | jnz | js | jns | jl | jle
  | group83 | movRm8R8 | movRm32R32 | movR8Rm8 | movR32Rm32 | movR8Imm8 | movR32Imm32
  | ret | movRm32Imm32 | leave | int | callRel32 | jmpRel32 | jmpRel8 | inAlDx | outDxAl | groupFF
deriving DecidableEq, Repr

/-- One row of R89: the leading bytes `b` with `b & mask == value` have this handler. -/
structure OpcodeRow where
  mask : Byte
  value : Byte
  handler : Handler
deriving DecidableEq, Repr

/-- The rows of R89 up to the PUSH forms. -/
def opcodeRowsArith : List OpcodeRow :=
  [⟨0xFF, 0x01, .addRm32R32⟩, ⟨0xFF, 0x3B, .cmpR32Rm32⟩, ⟨0xFF, 0x3C, .cmpAlImm8⟩, ⟨0xFF, 0x3D, .cmpEaxImm32⟩,
   ⟨0xF8, 0x40, .incR32⟩, ⟨0xF8, 0x50, .pushR32⟩, ⟨0xF8, 0x58, .popR32⟩, ⟨0xFF, 0x68, .pushImm32⟩,
   ⟨0xFF, 0x6A, .pushImm8⟩]

/-- The rows of R89 for the ten conditional jumps. -/
def opcodeRowsJcc : List OpcodeRow :=
  [⟨0xFF, 0x70, .jo⟩, ⟨0xFF, 0x71, .jno⟩, ⟨0xFF, 0x72, .jc⟩, ⟨0xFF, 0x73, .jnc⟩, ⟨0xFF, 0x74, .jz⟩,
   ⟨0xFF, 0x75, .jnz⟩, ⟨0xFF, 0x78, .js⟩, ⟨0xFF, 0x79, .jns⟩, ⟨0xFF, 0x7C, .jl⟩, ⟨0xFF, 0x7E, .jle⟩]

/-- The other rows of R89. -/
def opcodeRowsRest : List OpcodeRow :=
  [⟨0xFF, 0x83, .group83⟩, ⟨0xFF, 0x88, .movRm8R8⟩, ⟨0xFF, 0x89, .movRm32R32⟩, ⟨0xFF, 0x8A, .movR8Rm8⟩,
   ⟨0xFF, 0x8B, .movR32Rm32⟩, ⟨0xF8, 0xB0, .movR8Imm8⟩, ⟨0xF8, 0xB8, .movR32Imm32⟩, ⟨0xFF, 0xC3, .ret⟩,
   ⟨0xFF, 0xC7, .movRm32Imm32⟩, ⟨0xFF, 0xC9, .leave⟩, ⟨0xFF, 0xCD, .int⟩, ⟨0xFF, 0xE8, .callRel32⟩,
   ⟨0xFF, 0xE9, .jmpRel32⟩, ⟨0xFF, 0xEB, .jmpRel8⟩, ⟨0xFF, 0xEC, .inAlDx⟩, ⟨0xFF, 0xEE, .outDxAl⟩,
   ⟨0xFF, 0xFF, .groupFF⟩]

/-- The authoritative opcode set (R89); constant for every run (R36, log 35). -/
def opcodeTable : List OpcodeRow := opcodeRowsArith ++ opcodeRowsJcc ++ opcodeRowsRest

def OpcodeRow.covers (r : OpcodeRow) (b : Byte) : Bool := b &&& r.mask == r.value

/-- The dispatch lookup of R12 and R121: from a leading byte to an optional handler. -/
def dispatch (b : Byte) : Option Handler := (opcodeTable.find? (·.covers b)).map (·.handler)

/-! ## The decoder -/

/-- A conditional or unconditional short jump: the opcode and `rel8` (format OP_REL8 of R81). -/
def takeRel8 (mk : Byte → Instr) (rest : List Byte) : Except DecodeError (Instr × List Byte) := do
  let (rel, rest) ← take8 1 rest
  .ok (mk rel, rest)

/-- The operation of a group opcode (R87, R121): chosen after the whole ModRM group is decoded and before the immediate is read
(R264 items 6 and 7). -/
def decodeGroup83 (rest : List Byte) : Except DecodeError (Instr × List Byte) := do
  let (m, rest) ← takeModRM rest
  if m.reg = 0#3 then do
    let (imm, rest) ← take8 (1 + m.loc.mlen) rest
    .ok (.addRm32Imm8 m.loc.rm32 imm, rest)
  else if m.reg = 5#3 then do
    let (imm, rest) ← take8 (1 + m.loc.mlen) rest
    .ok (.subRm32Imm8 m.loc.rm32 imm, rest)
  else .error (.unmappedGroup 0x83#8 m.reg)

/-- The one operation of group 0xFF (R87, R158). -/
def decodeGroupFF (rest : List Byte) : Except DecodeError (Instr × List Byte) := do
  let (m, rest) ← takeModRM rest
  if m.reg = 0#3 then .ok (.incRm32 m.loc.rm32, rest)
  else .error (.unmappedGroup 0xFF#8 m.reg)

/-- The fields a handler takes from the bytes after its opcode byte, in the order of R264 (R81, R86). -/
def decodeHandler (h : Handler) (op : Byte) (rest : List Byte) : Except DecodeError (Instr × List Byte) :=
  match h with
  | .addRm32R32 => do
    let (m, rest) ← takeModRM rest
    .ok (.addRm32R32 m.loc.rm32 (Reg.ofCode m.reg), rest)
  | .cmpR32Rm32 => do
    let (m, rest) ← takeModRM rest
    .ok (.cmpR32Rm32 (Reg.ofCode m.reg) m.loc.rm32, rest)
  | .cmpAlImm8 => do
    let (imm, rest) ← take8 1 rest
    .ok (.cmpAlImm8 imm, rest)
  | .cmpEaxImm32 => do
    let (imm, rest) ← take32 1 rest
    .ok (.cmpEaxImm32 imm, rest)
  | .incR32 => do
    let r ← regOfIndex (op.toNat - 0x40)
    .ok (.incR32 r, rest)
  | .pushR32 => do
    let r ← regOfIndex (op.toNat - 0x50)
    .ok (.pushR32 r, rest)
  | .popR32 => do
    let r ← regOfIndex (op.toNat - 0x58)
    .ok (.popR32 r, rest)
  | .pushImm32 => do
    let (imm, rest) ← take32 1 rest
    .ok (.pushImm32 imm, rest)
  | .pushImm8 => do
    let (imm, rest) ← take8 1 rest
    .ok (.pushImm8 imm, rest)
  | .jo => takeRel8 .jo rest
  | .jno => takeRel8 .jno rest
  | .jc => takeRel8 .jc rest
  | .jnc => takeRel8 .jnc rest
  | .jz => takeRel8 .jz rest
  | .jnz => takeRel8 .jnz rest
  | .js => takeRel8 .js rest
  | .jns => takeRel8 .jns rest
  | .jl => takeRel8 .jl rest
  | .jle => takeRel8 .jle rest
  | .group83 => decodeGroup83 rest
  | .movRm8R8 => do
    let (m, rest) ← takeModRM rest
    .ok (.movRm8R8 m.loc.rm8 (Reg8.ofCode m.reg), rest)
  | .movRm32R32 => do
    let (m, rest) ← takeModRM rest
    .ok (.movRm32R32 m.loc.rm32 (Reg.ofCode m.reg), rest)
  | .movR8Rm8 => do
    let (m, rest) ← takeModRM rest
    .ok (.movR8Rm8 (Reg8.ofCode m.reg) m.loc.rm8, rest)
  | .movR32Rm32 => do
    let (m, rest) ← takeModRM rest
    .ok (.movR32Rm32 (Reg.ofCode m.reg) m.loc.rm32, rest)
  | .movR8Imm8 => do
    let r ← reg8OfIndex (op.toNat - 0xB0)
    let (imm, rest) ← take8 1 rest
    .ok (.movR8Imm8 r imm, rest)
  | .movR32Imm32 => do
    let r ← regOfIndex (op.toNat - 0xB8)
    let (imm, rest) ← take32 1 rest
    .ok (.movR32Imm32 r imm, rest)
  | .ret => .ok (.ret, rest)
  | .movRm32Imm32 => do
    let (m, rest) ← takeModRM rest
    let (imm, rest) ← take32 (1 + m.loc.mlen) rest
    .ok (.movRm32Imm32 m.reg m.loc.rm32 imm, rest)
  | .leave => .ok (.leave, rest)
  | .int => do
    let (v, rest) ← take8 1 rest
    .ok (.int v, rest)
  | .callRel32 => do
    let (rel, rest) ← take32 1 rest
    .ok (.callRel32 rel, rest)
  | .jmpRel32 => do
    let (rel, rest) ← take32 1 rest
    .ok (.jmpRel32 rel, rest)
  | .jmpRel8 => takeRel8 .jmpRel8 rest
  | .inAlDx => .ok (.inAlDx, rest)
  | .outDxAl => .ok (.outDxAl, rest)
  | .groupFF => decodeGroupFF rest

/-- The decoder, total on any bytes: the instruction that the bytes begin with and the bytes after it, or why there is none. The
list is what memory holds from the opcode byte on, so its end is the end of memory (R56, R124). Stateless (R96). -/
def decode : List Byte → Except DecodeError (Instr × List Byte)
  | [] => .error (.outOfBytes 0)
  | op :: rest =>
    match dispatch op with
    | none => .error (.unmappedOpcode op)
    | some h => decodeHandler h op rest

/-! ## The encoder -/

/-- The ModRM byte from its fields (R83). -/
def modRMByte (mod : BitVec 2) (reg rm : BitVec 3) : Byte := mod ++ reg ++ rm

/-- The ModRM group of a memory form (R84). -/
def MemForm.encode (reg : BitVec 3) : MemForm → List Byte
  | .abs d => modRMByte 0#2 reg 5#3 :: leBytes d
  | .base r => [modRMByte 0#2 reg r.code]
  | .baseDisp8 r d => [modRMByte 1#2 reg r.code, d]
  | .baseDisp32 r d => modRMByte 2#2 reg r.code :: leBytes d

def RM32.encode (reg : BitVec 3) : RM32 → List Byte
  | .reg r => [modRMByte 3#2 reg r.code]
  | .mem m => m.encode reg

def RM8.encode (reg : BitVec 3) : RM8 → List Byte
  | .reg r => [modRMByte 3#2 reg r.code]
  | .mem m => m.encode reg

/-- An opcode with a register number in its bits 2:0 (R82). -/
def opcodeWith (opBase : Byte) (r : BitVec 3) : Byte := opBase ||| r.zeroExtend 8

/-- The bytes of a well-formed instruction (R81, R89). -/
def encode : Instr → List Byte
  | .addRm32R32 dst src => 0x01#8 :: dst.encode src.code
  | .cmpR32Rm32 a b => 0x3B#8 :: b.encode a.code
  | .cmpAlImm8 imm => [0x3C#8, imm]
  | .cmpEaxImm32 imm => 0x3D#8 :: leBytes imm
  | .incR32 r => [opcodeWith 0x40#8 r.code]
  | .pushR32 r => [opcodeWith 0x50#8 r.code]
  | .popR32 r => [opcodeWith 0x58#8 r.code]
  | .pushImm32 imm => 0x68#8 :: leBytes imm
  | .pushImm8 imm => [0x6A#8, imm]
  | .jo rel => [0x70#8, rel]
  | .jno rel => [0x71#8, rel]
  | .jc rel => [0x72#8, rel]
  | .jnc rel => [0x73#8, rel]
  | .jz rel => [0x74#8, rel]
  | .jnz rel => [0x75#8, rel]
  | .js rel => [0x78#8, rel]
  | .jns rel => [0x79#8, rel]
  | .jl rel => [0x7C#8, rel]
  | .jle rel => [0x7E#8, rel]
  | .addRm32Imm8 dst imm => 0x83#8 :: (dst.encode 0#3 ++ [imm])
  | .subRm32Imm8 dst imm => 0x83#8 :: (dst.encode 5#3 ++ [imm])
  | .movRm8R8 dst src => 0x88#8 :: dst.encode src.code
  | .movRm32R32 dst src => 0x89#8 :: dst.encode src.code
  | .movR8Rm8 dst src => 0x8A#8 :: src.encode dst.code
  | .movR32Rm32 dst src => 0x8B#8 :: src.encode dst.code
  | .movR8Imm8 dst imm => [opcodeWith 0xB0#8 dst.code, imm]
  | .movR32Imm32 dst imm => opcodeWith 0xB8#8 dst.code :: leBytes imm
  | .ret => [0xC3#8]
  | .movRm32Imm32 ext dst imm => 0xC7#8 :: (dst.encode ext ++ leBytes imm)
  | .leave => [0xC9#8]
  | .int v => [0xCD#8, v]
  | .callRel32 rel => 0xE8#8 :: leBytes rel
  | .jmpRel32 rel => 0xE9#8 :: leBytes rel
  | .jmpRel8 rel => [0xEB#8, rel]
  | .inAlDx => [0xEC#8]
  | .outDxAl => [0xEE#8]
  | .incRm32 dst => 0xFF#8 :: dst.encode 0#3

/-- The byte length of an instruction (R81, R95). -/
def Instr.length : Instr → Nat
  | .addRm32R32 dst _ => 1 + dst.mlen
  | .cmpR32Rm32 _ b => 1 + b.mlen
  | .cmpAlImm8 _ => 2
  | .cmpEaxImm32 _ => 5
  | .incR32 _ => 1
  | .pushR32 _ => 1
  | .popR32 _ => 1
  | .pushImm32 _ => 5
  | .pushImm8 _ => 2
  | .jo _ => 2
  | .jno _ => 2
  | .jc _ => 2
  | .jnc _ => 2
  | .jz _ => 2
  | .jnz _ => 2
  | .js _ => 2
  | .jns _ => 2
  | .jl _ => 2
  | .jle _ => 2
  | .addRm32Imm8 dst _ => 1 + dst.mlen + 1
  | .subRm32Imm8 dst _ => 1 + dst.mlen + 1
  | .movRm8R8 dst _ => 1 + dst.mlen
  | .movRm32R32 dst _ => 1 + dst.mlen
  | .movR8Rm8 _ src => 1 + src.mlen
  | .movR32Rm32 _ src => 1 + src.mlen
  | .movR8Imm8 _ _ => 2
  | .movR32Imm32 _ _ => 5
  | .ret => 1
  | .movRm32Imm32 _ dst _ => 1 + dst.mlen + 4
  | .leave => 1
  | .int _ => 2
  | .callRel32 _ => 5
  | .jmpRel32 _ => 5
  | .jmpRel8 _ => 2
  | .inAlDx => 1
  | .outDxAl => 1
  | .incRm32 dst => 1 + dst.mlen

/-- The length of the longest instruction: `C7` with a 32-bit displacement (R80). -/
def maxInstrLength : Nat := 10

/-! ## The host's view of a table row -/

/-- The bytes of an instruction given as a number, `nbits` bits of it used, first byte in bits 7:0, then zeros up to the longest
instruction. -/
def tableBytes (nbits w : Nat) : List Byte :=
  (List.range maxInstrLength).map fun k => if 8 * k < nbits then BitVec.ofNat 8 (w >>> (8 * k)) else 0#8

/-- The instruction the decoder reads from an opcode-table word. -/
def decodeTableWord (nbits w : Nat) : Option Instr :=
  match decode (tableBytes nbits w) with
  | .ok (i, _) => some i
  | .error _ => none

end Sys2Proof
end

