-- ==== Sys2Proof/Config.lean ====
section
/-! DEFINITION. The implementation parameters of 00_scope.md R15, the values presumed for its open ones at State.reset, and the
free values. -/

namespace Sys2Proof.Config

/-- LOAD_ADDR: the address the image is placed at (R15). -/
def loadAddr : Nat := 0x7C00

/-- IMAGE_LEN: the number of bytes of the program image (R15). -/
def imageLen : Nat := 512

/-- INIT_EIP: EIP after reset, the load address (R15, R40). -/
def initEip : Word := 0x7C00#32

/-- HALT_SENTINEL: the EIP value that ends the run normally (R15, R122). -/
def haltSentinel : Word := 0#32

/-- SERIAL_PORT: the one implemented I/O port (R15, R244). -/
def serialPort : BitVec 16 := 0x03F8#16

/-- BIOS_VIDEO_VECTOR: the one implemented interrupt vector (R15, R246). -/
def biosVideoVector : Byte := 0x10#8

/-- TELETYPE_FN: the one implemented video function, a value of AH (R15, R241). -/
def teletypeFn : Byte := 0x0E#8

/-- The least MEM_SIZE, the address after the image (R15, R292). -/
def minMemSize : Nat := 0x7E00

/-- The greatest MEM_SIZE: every byte has a 32-bit address (R15). -/
def maxMemSize : Nat := 2 ^ 32

/-- PRESUMED (log 1): the MEM_SIZE of `State.reset`. MEM_SIZE is an open parameter (D1); the machine's rules read the size that
State holds, never this value. -/
def resetMemSize : Nat := 0x100000

/-- PRESUMED (log 2): the INIT_ESP of `State.reset`. INIT_ESP is an open parameter (D2). -/
def resetEsp : Word := 0x7C00#32

/-- FREE VALUE (log 8, log 9, log 32): the byte the input source answers with where nothing the spec gives determines it. The
argument counts the draws of a run, so that each draw is a value of its own. It has no body. -/
opaque freeByte : Nat → Byte

end Sys2Proof.Config
end

