-- ==== Sys2Proof/Machine/State.lean ====
section
/-! DEFINITION. The state of the CORE and of the agents it speaks to, as plain data, and its value after reset (10_state.md). -/

namespace Sys2Proof.Machine

/-- The eight general registers of 10_state.md R21. The 8-bit aliases have no storage of their own (R23). -/
structure Regs where
  eax : Word
  ecx : Word
  edx : Word
  ebx : Word
  esp : Word
  ebp : Word
  esi : Word
  edi : Word
deriving DecidableEq, Repr

/-- The linear memory (10_state.md R35, 20_memory.md R50): `size` is MEM_SIZE, fixed for the life of the state, and `cells` lists
the bytes that differ from the reset byte 0x00 (log 5), addresses strictly rising. -/
structure Memory where
  size : Nat
  cells : List Host.Cell
deriving DecidableEq, Repr

/-- The halt reasons and payloads of 60_exceptions.md R261. -/
inductive HaltReason where
  /-- EIP was 0 after a completed instruction: the one successful end (R122, R294). -/
  | normalEnd
  /-- The leading byte has no dispatch entry (R91). -/
  | unimplementedOpcode (b : Byte)
  /-- The selector names no operation of the group opcode (R92). -/
  | unimplementedGroupExtension (g : Byte) (n : BitVec 3)
  /-- A SIB byte would follow this ModRM byte (R85). -/
  | unimplementedAddressingForm (m : Byte)
  /-- An access whose first address this is does not lie within memory (R56). The address is a natural number: an instruction
  field is addressed without wrap-around (R124). -/
  | outOfBounds (addr : Nat)
  /-- A register index outside 0 to 7; unreachable (R26, log 30). -/
  | invalidRegisterIndex (i : Nat)
  /-- IN from a port other than 0x03F8 (R242). -/
  | unknownPortRead (port : BitVec 16)
deriving DecidableEq, Repr

/-- The run state of 10_state.md R33. -/
inductive RunState where
  | running
  | halted (reason : HaltReason)
deriving DecidableEq, Repr

/-- The events a run can emit (00_scope.md R18). -/
inductive Event where
  /-- The opcode byte about to be dispatched, only when QUIET is false (R135). -/
  | trace (pc0 : Word) (opcode : Byte)
  /-- A character sent to port 0x03F8 (R245). -/
  | serialOut (b : Byte)
  /-- The BIOS teletype service: character and foreground colour nibble (R241). -/
  | teletype (char : Byte) (colour : BitVec 4)
  /-- INT with a vector other than 0x10 (R246). -/
  | reportUnknownInterrupt (vector : Byte)
  /-- INT 0x10 with AH other than 0x0E (R241). -/
  | reportUnknownVideoFunction (ah : Byte)
  /-- The report of a halt, once (R123, R269). -/
  | haltReport (reason : HaltReason) (regs : Regs) (pc : Word)
deriving DecidableEq, Repr

/-- What the input source does once the lines it is known to hold are consumed (log 8, log 9, log 10). -/
inductive InputAfter where
  /-- It goes on answering, with lines that nothing in the state determines. -/
  | unknownLines
  /-- The input has ended. -/
  | ended
  /-- It never answers again. -/
  | silent
deriving DecidableEq, Repr

/-- The input source (10_state.md R39, 45_io_interrupt.md R244): the lines it will answer with, next first, each a list of
character codes, and what it does after them. -/
structure InputSource where
  lines : List (List Nat)
  after : InputAfter
deriving DecidableEq, Repr

/-- The whole state (10_state.md R20, R33, R39; 00_scope.md R14). -/
structure State where
  /-- The general registers (R21). -/
  regs : Regs
  /-- EIP (R27). -/
  eip : Word
  /-- The flags word (R30). -/
  eflags : BitVec 16
  /-- The linear memory (R35). -/
  memory : Memory
  /-- The run state (R33). -/
  runState : RunState
  /-- QUIET: no trace events (R15). -/
  quiet : Bool
  /-- The input source (R244). -/
  input : InputSource
  /-- The MODEL's own: how many free values the run has drawn (log 32). -/
  freeIndex : Nat
  /-- The events emitted so far, oldest first (R18). -/
  events : List Event
deriving DecidableEq, Repr

/-- Why a step can end without a next state. -/
inductive Fault where
  /-- STUCK. Raised by IN AL,DX from port 0x03F8 when the input source never answers: the step never completes and no state changes
  (45_io_interrupt.md R244, 60_exceptions.md R274; log 10). Safe: the hardware makes no progress either. -/
  | inputNeverAnswers
deriving DecidableEq, Repr

/-- Why an instruction has no meaning. -/
inductive Refusal where
  /-- Raised by an arm of `exec` whose instruction is not modelled, by its mnemonic; no arm raises it now. Safe. -/
  | notModelled (mnemonic : String)
deriving DecidableEq, Repr

/-- The registers after reset (10_state.md R40): ESP is INIT_ESP, the others are zero (log 2, log 3). -/
def Regs.reset (initEsp : Word) : Regs :=
  { eax := 0#32, ecx := 0#32, edx := 0#32, ebx := 0#32, esp := initEsp, ebp := 0#32, esi := 0#32, edi := 0#32 }

/-- The machine right after reset (10_state.md R40, 70_reset_and_hazards.md R290), with the presumed MEM_SIZE and INIT_ESP (log 1,
log 2), an image of zero bytes (log 6), QUIET false (log 7) and an input source whose lines are unknown (log 8). -/
def State.reset : State :=
  { regs := Regs.reset Config.resetEsp
    eip := Config.initEip
    eflags := 0#16
    memory := { size := Config.resetMemSize, cells := [] }
    runState := .running
    quiet := false
    input := { lines := [], after := .unknownLines }
    freeIndex := 0
    events := [] }

end Sys2Proof.Machine
end

