-- ==== Sys2Proof/Machine/Ops.lean ====
section
/-! DEFINITION. The named operations over registers, memory, stack, run state and events (00_scope.md R7 to R11, 20_memory.md R51,
40_execution_core.md R130 to R134). -/

namespace Sys2Proof.Machine

/-! ## The register file (00_scope.md R7) -/

/-- get32 on the register record (R21). -/
def Regs.get (g : Regs) : Reg → Word
  | .eax => g.eax | .ecx => g.ecx | .edx => g.edx | .ebx => g.ebx
  | .esp => g.esp | .ebp => g.ebp | .esi => g.esi | .edi => g.edi

/-- set32 on the register record (R21). -/
def Regs.set (g : Regs) (r : Reg) (v : Word) : Regs :=
  match r with
  | .eax => { g with eax := v }
  | .ecx => { g with ecx := v }
  | .edx => { g with edx := v }
  | .ebx => { g with ebx := v }
  | .esp => { g with esp := v }
  | .ebp => { g with ebp := v }
  | .esi => { g with esi := v }
  | .edi => { g with edi := v }

/-- `x[r]` of R17. -/
def State.reg (s : State) (r : Reg) : Word := s.regs.get r

/-- `x[r] <- v` of R17. -/
def State.setReg (s : State) (r : Reg) (v : Word) : State := { s with regs := s.regs.set r v }

/-- The register an 8-bit alias is a slice of (R23). -/
def Reg8.parent : Reg8 → Reg
  | .al => .eax | .cl => .ecx | .dl => .edx | .bl => .ebx
  | .ah => .eax | .ch => .ecx | .dh => .edx | .bh => .ebx

/-- Whether the alias is bits 15:8 of its parent, rather than bits 7:0 (R23). -/
def Reg8.isHigh : Reg8 → Bool
  | .al => false | .cl => false | .dl => false | .bl => false
  | .ah => true | .ch => true | .dh => true | .bh => true

/-- The slice of a parent register an alias names (R23). -/
def aliasRead (w : Word) (high : Bool) : Byte :=
  if high then w.extractLsb' 8 8 else w.extractLsb' 0 8

/-- The parent register with that slice replaced and the other 24 bits preserved (R24). -/
def aliasWrite (w : Word) (high : Bool) (v : Byte) : Word :=
  if high then w.extractLsb' 16 16 ++ v ++ w.extractLsb' 0 8 else w.extractLsb' 8 24 ++ v

/-- `x8[j]` of R17. -/
def State.reg8 (s : State) (r : Reg8) : Byte := aliasRead (s.reg (Reg8.parent r)) (Reg8.isHigh r)

/-- `x8[j] <- v` of R17. -/
def State.setReg8 (s : State) (r : Reg8) (v : Byte) : State :=
  s.setReg (Reg8.parent r) (aliasWrite (s.reg (Reg8.parent r)) (Reg8.isHigh r) v)

/-- The port number of IN and OUT: the low 16 bits of EDX (R25). -/
def State.port (s : State) : BitVec 16 := (s.reg .edx).extractLsb' 0 16

/-! ## Linear memory (00_scope.md R9, 20_memory.md R51) -/

/-- What an address that is not listed reads as (log 5). -/
def unlistedByte : Byte := 0#8

/-- The byte a list of cells gives an address. -/
def cellsGet : List Host.Cell → Nat → Byte
  | [], _ => unlistedByte
  | (k, v) :: t, a => if k = a then v else cellsGet t a

/-- The list of cells with the byte at `a` replaced: addresses stay rising, and the unlisted byte is not listed. -/
def cellsPut : List Host.Cell → Nat → Byte → List Host.Cell
  | [], a, v => if v = unlistedByte then [] else [(a, v)]
  | (k, w) :: t, a, v =>
    if a < k then (if v = unlistedByte then (k, w) :: t else (a, v) :: (k, w) :: t)
    else if a = k then (if v = unlistedByte then t else (a, v) :: t)
    else (k, w) :: cellsPut t a v

/-- The canonical form: addresses from `lo` on, strictly rising, below `size`, and no cell holds the unlisted byte. -/
def cellsWf (size : Nat) : Nat → List Host.Cell → Bool
  | _, [] => true
  | lo, (k, v) :: t => decide (lo ≤ k) && decide (k < size) && decide (v ≠ unlistedByte) && cellsWf size (k + 1) t

/-- The memory is in its canonical form. -/
def Memory.wf (m : Memory) : Bool := cellsWf m.size 0 m.cells

/-- `memory[a]` of R51. -/
def Memory.byte (m : Memory) (a : Nat) : Byte := cellsGet m.cells a

/-- `memory[a] <- v` of R51, for an address below the size. -/
def Memory.setByte (m : Memory) (a : Nat) (v : Byte) : Memory := { m with cells := cellsPut m.cells a v }

/-- The four bytes at `a` as a word, little-endian (R51, R52). -/
def Memory.word (m : Memory) (a : Nat) : Word :=
  le32 (m.byte a) (m.byte (a + 1)) (m.byte (a + 2)) (m.byte (a + 3))

/-- The four bytes at `a` replaced by those of `v`, little-endian (R51, R52). -/
def Memory.setWord (m : Memory) (a : Nat) (v : Word) : Memory :=
  (((m.setByte a (byteOf v 0)).setByte (a + 1) (byteOf v 1)).setByte (a + 2) (byteOf v 2)).setByte (a + 3) (byteOf v 3)

/-- Whether an access of `n` bytes at `a` lies within memory, computed without wrap-around (R51, R56). -/
def Memory.holds (m : Memory) (a n : Nat) : Bool := decide (a + n ≤ m.size)

/-- `MemRead(a, 1)` of R51. -/
def Memory.read8 (m : Memory) (a : Nat) : Except HaltReason Byte :=
  if m.holds a 1 then .ok (m.byte a) else .error (.outOfBounds a)

/-- `MemRead(a, 4)` of R51. -/
def Memory.read32 (m : Memory) (a : Nat) : Except HaltReason Word :=
  if m.holds a 4 then .ok (m.word a) else .error (.outOfBounds a)

/-- `MemWrite(a, 1, v)` of R51. -/
def Memory.write8 (m : Memory) (a : Nat) (v : Byte) : Except HaltReason Memory :=
  if m.holds a 1 then .ok (m.setByte a v) else .error (.outOfBounds a)

/-- `MemWrite(a, 4, v)` of R51. -/
def Memory.write32 (m : Memory) (a : Nat) (v : Word) : Except HaltReason Memory :=
  if m.holds a 4 then .ok (m.setWord a v) else .error (.outOfBounds a)

/-- Up to `n` bytes from `a` on: those that lie within memory (R124). -/
def Memory.window (m : Memory) (a : Nat) : Nat → List Byte
  | 0 => []
  | n + 1 => if a < m.size then m.byte a :: m.window (a + 1) n else []

/-- Bytes stored one after another from `a` on, those within memory. -/
def Memory.setBytes (m : Memory) (a : Nat) : List Byte → Memory
  | [] => m
  | b :: t => (if a < m.size then m.setByte a b else m).setBytes (a + 1) t

def State.setMemory (s : State) (m : Memory) : State := { s with memory := m }

/-- A 32-bit store at a computed address. -/
def State.store32 (s : State) (a : Word) (v : Word) : Except HaltReason State := do
  let m ← s.memory.write32 a.toNat v
  .ok (s.setMemory m)

/-- An 8-bit store at a computed address. -/
def State.store8 (s : State) (a : Word) (v : Byte) : Except HaltReason State := do
  let m ← s.memory.write8 a.toNat v
  .ok (s.setMemory m)

/-! ## The ALU (40_execution_core.md R134) and sign extension -/

/-- `add32`: modulo 2^32, no flags (R134 (a)). -/
def add32 (a b : Word) : Word := a + b

/-- `inc32`: modulo 2^32, no flags (R134 (b)). -/
def inc32 (a : Word) : Word := a + 1#32

/-- `sub64`: the 64-bit difference, whose bit 32 is the borrow (R134 (c)). -/
def sub64 (a b : Word) : BitVec 64 := a.zeroExtend 64 - b.zeroExtend 64

/-- `sext_32` of a byte (R134 (d)). -/
def sext32 (b : Byte) : Word := b.signExtend 32

/-- `zext_32` of a byte (R16). -/
def zext32 (b : Byte) : Word := b.zeroExtend 32

/-! ## EIP (40_execution_core.md R131) -/

/-- `pc <- v`. -/
def State.setEip (s : State) (v : Word) : State := { s with eip := v }

/-- The address of the next instruction: `pc0 +32 len`. -/
def State.nextEip (s : State) (len : Nat) : Word := s.eip + BitVec.ofNat 32 len

/-- A sequential instruction's EIP: `pc <- pc0 +32 len` (R131). -/
def State.advance (s : State) (len : Nat) : State := s.setEip (s.nextEip len)

/-! ## The stack (40_execution_core.md R130) -/

/-- The address a push writes: `x[4] -32 4`. -/
def State.pushAddr (s : State) : Word := s.reg .esp - 4#32

/-- `push32(v)` of R130. -/
def push32 (s : State) (v : Word) : Except HaltReason State := do
  let t ← s.store32 s.pushAddr v
  .ok (t.setReg .esp s.pushAddr)

/-- `pop32()` of R130. -/
def pop32 (s : State) : Except HaltReason (Word × State) := do
  let v ← s.memory.read32 (s.reg .esp).toNat
  .ok (v, s.setReg .esp (s.reg .esp + 4#32))

/-! ## Halting and events (40_execution_core.md R122, R123, R132) -/

/-- `raise Halt.<Reason>`: the run state becomes Halted and nothing else changes (R17, R132). This is all the CORE has in place of
taking an exception (60_exceptions.md R260), and there is no return from it (R123, R267). -/
def State.halt (s : State) (r : HaltReason) : State := { s with runState := .halted r }

/-- `emit e`: append to the output of the run (R17). -/
def State.emit (s : State) (e : Event) : State := { s with events := s.events ++ [e] }

/-- An instruction completes all of its effects, or raises one halt and has none of them (R132). -/
def complete (s : State) (e : Except HaltReason State) : Host.Outcome State Fault Refusal :=
  match e with
  | .ok t => .next t
  | .error r => .next (s.halt r)

/-- The sentinel check (R122): a completed instruction that left EIP = 0 ends the run. -/
def State.sentinel (s : State) : State :=
  match s.runState with
  | .running => if s.eip = Config.haltSentinel then s.halt .normalEnd else s
  | .halted _ => s

/-- The one halt report of a run that has just halted (R123, R269; log 13). -/
def State.report (s : State) : State :=
  match s.runState with
  | .running => s
  | .halted r => s.emit (.haltReport r s.regs s.eip)

/-- What ends every step (R120, R123). -/
def State.endStep (s : State) : State := s.sentinel.report

/-- The same on the outcome of an instruction. -/
def endOutcome : Host.Outcome State Fault Refusal → Host.Outcome State Fault Refusal
  | .next s => .next s.endStep
  | .fault f => .fault f
  | .refused r => .refused r

end Sys2Proof.Machine
end

