-- ==== Sys2Proof/Machine/Flags.lean ====
section
/-! DEFINITION. The flags engine and the branch conditions (10_state.md R30 to R32, 41_arith_flags.md R150, 44_control_flow.md
R210). -/

namespace Sys2Proof.Machine

/-- The four modelled flags (00_scope.md R8). -/
inductive FlagKind where
  | carry | zero | sign | overflow
deriving DecidableEq, Repr

/-- The bit of EFLAGS a flag is kept in (R30). -/
def FlagKind.bit : FlagKind → Nat
  | .carry => 0
  | .zero => 6
  | .sign => 7
  | .overflow => 11

/-- The mask of that bit. -/
def FlagKind.mask : FlagKind → BitVec 16
  | .carry => 0x0001#16
  | .zero => 0x0040#16
  | .sign => 0x0080#16
  | .overflow => 0x0800#16

/-- The mask of the four modelled bits (R30). -/
def flagsMask : BitVec 16 := 0x08C1#16

/-- `is_set(kind)` of R8. -/
def isSet (w : BitVec 16) (k : FlagKind) : Bool := w.getLsbD k.bit

/-- `set_flag(kind, b)` of R8: only the bit of `kind` changes (R32). -/
def setFlag (w : BitVec 16) (k : FlagKind) (b : Bool) : BitVec 16 :=
  if b then w ||| k.mask else w &&& ~~~k.mask

def State.flag (s : State) (k : FlagKind) : Bool := isSet s.eflags k

/-- Carry after a subtraction: bit 32 of the result (R150). -/
def subCarry (result : BitVec 64) : Bool := result.getLsbD 32

/-- Zero after a subtraction: the low 32 bits are zero (R150). -/
def subZero (result : BitVec 64) : Bool := result.extractLsb' 0 32 == 0#32

/-- Sign after a subtraction: the COMPLEMENT of bit 31 (R150; the spec keeps it, log 18). -/
def subSign (result : BitVec 64) : Bool := !result.getLsbD 31

/-- Overflow after a subtraction: the operands' signs differ and the result's sign differs from the first's (R150). -/
def subOverflow (a b : Word) (result : BitVec 64) : Bool :=
  (a.msb != b.msb) && (result.getLsbD 31 != a.msb)

/-- The flags word `update_flags_sub(a, b, result)` leaves: all four flags written (R150). -/
def flagsAfterSub (w : BitVec 16) (a b : Word) (result : BitVec 64) : BitVec 16 :=
  setFlag (setFlag (setFlag (setFlag w .carry (subCarry result)) .zero (subZero result)) .sign (subSign result))
    .overflow (subOverflow a b result)

def State.setEflags (s : State) (w : BitVec 16) : State := { s with eflags := w }

/-- `update_flags_sub` with the 64-bit difference its caller computes (R134 (c), R150); the sole mutator of the flags. -/
def updateFlagsSub (s : State) (a b : Word) : State := s.setEflags (flagsAfterSub s.eflags a b (sub64 a b))

/-! ## The conditions of 44_control_flow.md R210 -/

def condO (s : State) : Bool := s.flag .overflow
def condNO (s : State) : Bool := !s.flag .overflow
def condC (s : State) : Bool := s.flag .carry
def condNC (s : State) : Bool := !s.flag .carry
def condZ (s : State) : Bool := s.flag .zero
def condNZ (s : State) : Bool := !s.flag .zero
def condS (s : State) : Bool := s.flag .sign
def condNS (s : State) : Bool := !s.flag .sign

/-- `SF != OF` (log 21). -/
def condL (s : State) : Bool := s.flag .sign != s.flag .overflow

/-- `ZF == 1 OR SF != OF` (log 21). -/
def condLE (s : State) : Bool := s.flag .zero || (s.flag .sign != s.flag .overflow)

end Sys2Proof.Machine
end

