-- ==== Sys2Proof/Machine/Operands.lean ====
section
/-! DEFINITION. Effective addresses and the operand accessors (40_execution_core.md R126 to R129). -/

namespace Sys2Proof.Machine

/-- EA of R126: the absolute displacement, or the base register plus the displacement modulo 2^32. The base is always a 32-bit
register, in 8-bit instructions too (R129). -/
def effAddr (s : State) : MemForm → Word
  | .abs d => d
  | .base r => s.reg r
  | .baseDisp8 r d => add32 (s.reg r) (sext32 d)
  | .baseDisp32 r d => add32 (s.reg r) d

/-- `get_rm32` of R127. -/
def getRm32 (s : State) : RM32 → Except HaltReason Word
  | .reg r => .ok (s.reg r)
  | .mem m => s.memory.read32 (effAddr s m).toNat

/-- `set_rm32` of R127. -/
def setRm32 (s : State) (o : RM32) (v : Word) : Except HaltReason State :=
  match o with
  | .reg r => .ok (s.setReg r v)
  | .mem m => s.store32 (effAddr s m) v

/-- `get_rm8` of R129. -/
def getRm8 (s : State) : RM8 → Except HaltReason Byte
  | .reg r => .ok (s.reg8 r)
  | .mem m => s.memory.read8 (effAddr s m).toNat

/-- `set_rm8` of R129. -/
def setRm8 (s : State) (o : RM8) (v : Byte) : Except HaltReason State :=
  match o with
  | .reg r => .ok (s.setReg8 r v)
  | .mem m => s.store8 (effAddr s m) v

end Sys2Proof.Machine
end

