-- ==== Sys2Proof/Machine/Arith.lean ====
section
/-! DEFINITION. Arithmetic and compare (41_arith_flags.md R151 to R158). -/

namespace Sys2Proof.Machine

/-- An `rm32` destination replaced by a function of its value, without flags (the common form of R151, R156, R158). -/
def updateRm32 (s : State) (dst : RM32) (f : Word → Word) (len : Nat) : Host.Outcome State Fault Refusal :=
  complete s do
    let a ← getRm32 s dst
    let t ← setRm32 s dst (f a)
    .ok (t.advance len)

/-- ADD r/m32,r32 (R151). -/
def execAddRm32R32 (dst : RM32) (src : Reg) (s : State) : Host.Outcome State Fault Refusal :=
  updateRm32 s dst (fun a => add32 a (s.reg src)) (1 + dst.mlen)

/-- CMP r32,r/m32 (R152). -/
def execCmpR32Rm32 (a : Reg) (b : RM32) (s : State) : Host.Outcome State Fault Refusal :=
  complete s do
    let v ← getRm32 s b
    .ok ((updateFlagsSub s (s.reg a) v).advance (1 + b.mlen))

/-- CMP AL,imm8 (R153): both operands are zero-extended (log 20). -/
def execCmpAlImm8 (imm : Byte) (s : State) : Host.Outcome State Fault Refusal :=
  .next ((updateFlagsSub s (zext32 (s.reg8 .al)) (zext32 imm)).advance 2)

/-- CMP EAX,imm32 (R154). -/
def execCmpEaxImm32 (imm : Word) (s : State) : Host.Outcome State Fault Refusal :=
  .next ((updateFlagsSub s (s.reg .eax) imm).advance 5)

/-- INC r32 (R155): no flags. -/
def execIncR32 (r : Reg) (s : State) : Host.Outcome State Fault Refusal :=
  .next ((s.setReg r (inc32 (s.reg r))).advance 1)

/-- ADD r/m32,imm8 (R156): the immediate is sign-extended. -/
def execAddRm32Imm8 (dst : RM32) (imm : Byte) (s : State) : Host.Outcome State Fault Refusal :=
  updateRm32 s dst (fun a => add32 a (sext32 imm)) (1 + dst.mlen + 1)

/-- SUB r/m32,imm8 (R157): the low 32 bits of the difference are written, and all four flags (log 19). -/
def execSubRm32Imm8 (dst : RM32) (imm : Byte) (s : State) : Host.Outcome State Fault Refusal :=
  complete s do
    let a ← getRm32 s dst
    let t ← setRm32 s dst ((sub64 a (sext32 imm)).extractLsb' 0 32)
    .ok ((updateFlagsSub t a (sext32 imm)).advance (1 + dst.mlen + 1))

/-- INC r/m32 (R158): no flags. -/
def execIncRm32 (dst : RM32) (s : State) : Host.Outcome State Fault Refusal :=
  updateRm32 s dst inc32 (1 + dst.mlen)

end Sys2Proof.Machine
end

