-- ==== Sys2Proof/Machine/Control.lean ====
section
/-! DEFINITION. Control transfer (44_control_flow.md R210 to R224). No instruction here writes a flag, and no target is checked here
(R225, log 27). -/

namespace Sys2Proof.Machine

/-- A relative transfer: the displacement is added to the address of the next instruction (R131, log 27). -/
def State.jumpRel (s : State) (len : Nat) (rel : Word) : State := s.setEip (s.nextEip len + rel)

/-- The common form of the conditional short jumps (R210). -/
def branchIf (cond : Bool) (rel : Byte) (s : State) : Host.Outcome State Fault Refusal :=
  .next (if cond then s.jumpRel 2 (sext32 rel) else s.advance 2)

/-- JO rel8 (R211). -/
def execJo (rel : Byte) (s : State) : Host.Outcome State Fault Refusal := branchIf (condO s) rel s

/-- JNO rel8 (R212). -/
def execJno (rel : Byte) (s : State) : Host.Outcome State Fault Refusal := branchIf (condNO s) rel s

/-- JC rel8 (R213). -/
def execJc (rel : Byte) (s : State) : Host.Outcome State Fault Refusal := branchIf (condC s) rel s

/-- JNC rel8 (R214). -/
def execJnc (rel : Byte) (s : State) : Host.Outcome State Fault Refusal := branchIf (condNC s) rel s

/-- JZ rel8 (R215). -/
def execJz (rel : Byte) (s : State) : Host.Outcome State Fault Refusal := branchIf (condZ s) rel s

/-- JNZ rel8 (R216). -/
def execJnz (rel : Byte) (s : State) : Host.Outcome State Fault Refusal := branchIf (condNZ s) rel s

/-- JS rel8 (R217). -/
def execJs (rel : Byte) (s : State) : Host.Outcome State Fault Refusal := branchIf (condS s) rel s

/-- JNS rel8 (R218). -/
def execJns (rel : Byte) (s : State) : Host.Outcome State Fault Refusal := branchIf (condNS s) rel s

/-- JL rel8 (R219). -/
def execJl (rel : Byte) (s : State) : Host.Outcome State Fault Refusal := branchIf (condL s) rel s

/-- JLE rel8 (R220). -/
def execJle (rel : Byte) (s : State) : Host.Outcome State Fault Refusal := branchIf (condLE s) rel s

/-- JMP rel32 (R221). -/
def execJmpRel32 (rel : Word) (s : State) : Host.Outcome State Fault Refusal := .next (s.jumpRel 5 rel)

/-- JMP rel8 (R222). -/
def execJmpRel8 (rel : Byte) (s : State) : Host.Outcome State Fault Refusal := .next (s.jumpRel 2 (sext32 rel))

/-- CALL rel32 (R223): the link is the stack. -/
def execCallRel32 (rel : Word) (s : State) : Host.Outcome State Fault Refusal :=
  complete s do
    let t ← push32 s (s.nextEip 5)
    .ok (t.jumpRel 5 rel)

/-- RET (R224). -/
def execRet (s : State) : Host.Outcome State Fault Refusal :=
  complete s do
    let (v, t) ← pop32 s
    .ok (t.setEip v)

end Sys2Proof.Machine
end

