-- ==== Sys2Proof/Machine/Io.lean ====
section
/-! DEFINITION. Software interrupt and port I/O (45_io_interrupt.md R240 to R246). No instruction here reads or writes a flag. -/

namespace Sys2Proof.Machine

/-! ## The I/O and BIOS layer at its interface (00_scope.md R13) -/

/-- A byte that nothing the spec gives determines: the next free value (log 8, log 9, log 32). -/
def State.drawByte (s : State) : Byte × State :=
  (Config.freeByte s.freeIndex, { s with freeIndex := s.freeIndex + 1 })

def State.setLines (s : State) (lines : List (List Nat)) : State := { s with input := { s.input with lines := lines } }

/-- The first character of a line as a byte (R244). The spec gives no value for an empty line or a character above 255: a free
value (N15, log 9). -/
def lineByte (line : List Nat) (s : State) : Byte × State :=
  match line with
  | [] => s.drawByte
  | c :: _ => if c < 256 then (BitVec.ofNat 8 c, s) else s.drawByte

/-- `io_in8(0x03F8)` of R244: one whole line is consumed and its first character is the byte. `none`: the input source never
answers (R274, log 10). -/
def ioIn8 (s : State) : Option (Byte × State) :=
  match s.input.lines with
  | line :: rest => some (lineByte line (s.setLines rest))
  | [] =>
    match s.input.after with
    | .unknownLines => some s.drawByte
    | .ended => some s.drawByte
    | .silent => none

/-- `io_out8(port, v)` of R245. -/
def ioOut8 (port : BitVec 16) (v : Byte) (s : State) : State :=
  if port = Config.serialPort then s.emit (.serialOut v) else s

/-- The BIOS video service of R241: it reads AH, AL and BL and writes no register, flag or memory. -/
def biosVideo (s : State) : State :=
  if s.reg8 .ah = Config.teletypeFn then s.emit (.teletype (s.reg8 .al) ((s.reg8 .bl).extractLsb' 0 4))
  else s.emit (.reportUnknownVideoFunction (s.reg8 .ah))

/-- `bios_call(vector)` of R246. -/
def biosCall (vector : Byte) (s : State) : State :=
  if vector = Config.biosVideoVector then biosVideo s else s.emit (.reportUnknownInterrupt vector)

/-! ## The instructions -/

/-- INT imm8 (R240): a service call, then the next instruction; nothing is pushed and no vector table is read (log 25). -/
def execInt (vector : Byte) (s : State) : Host.Outcome State Fault Refusal := .next ((biosCall vector s).advance 2)

/-- IN AL,DX (R242). -/
def execInAlDx (s : State) : Host.Outcome State Fault Refusal :=
  if s.port = Config.serialPort then
    match ioIn8 s with
    | some (v, t) => .next ((t.setReg8 .al v).advance 1)
    | none => .fault .inputNeverAnswers
  else .next (s.halt (.unknownPortRead s.port))

/-- OUT DX,AL (R243): the port number is masked to 16 bits (log 26). -/
def execOutDxAl (s : State) : Host.Outcome State Fault Refusal := .next ((ioOut8 s.port (s.reg8 .al) s).advance 1)

end Sys2Proof.Machine
end

