-- ==== Sys2Proof/Machine/Mov.lean ====
section
/-! DEFINITION. Data movement (42_data_movement.md R170 to R176). No MOV reads or writes a flag. -/

namespace Sys2Proof.Machine

/-- MOV r/m8,r8 (R170): a byte store (log 29). -/
def execMovRm8R8 (dst : RM8) (src : Reg8) (s : State) : Host.Outcome State Fault Refusal :=
  complete s do
    let t ← setRm8 s dst (s.reg8 src)
    .ok (t.advance (1 + dst.mlen))

/-- MOV r/m32,r32 (R171). -/
def execMovRm32R32 (dst : RM32) (src : Reg) (s : State) : Host.Outcome State Fault Refusal :=
  complete s do
    let t ← setRm32 s dst (s.reg src)
    .ok (t.advance (1 + dst.mlen))

/-- MOV r8,r/m8 (R172). -/
def execMovR8Rm8 (dst : Reg8) (src : RM8) (s : State) : Host.Outcome State Fault Refusal :=
  complete s do
    let v ← getRm8 s src
    .ok ((s.setReg8 dst v).advance (1 + src.mlen))

/-- MOV r32,r/m32 (R173). -/
def execMovR32Rm32 (dst : Reg) (src : RM32) (s : State) : Host.Outcome State Fault Refusal :=
  complete s do
    let v ← getRm32 s src
    .ok ((s.setReg dst v).advance (1 + src.mlen))

/-- MOV r8,imm8 (R174). -/
def execMovR8Imm8 (dst : Reg8) (imm : Byte) (s : State) : Host.Outcome State Fault Refusal :=
  .next ((s.setReg8 dst imm).advance 2)

/-- MOV r32,imm32 (R175). -/
def execMovR32Imm32 (dst : Reg) (imm : Word) (s : State) : Host.Outcome State Fault Refusal :=
  .next ((s.setReg dst imm).advance 5)

/-- MOV r/m32,imm32 (R176): the ModRM `reg` field `ext` is ignored (R88, log 24). -/
def execMovRm32Imm32 (_ext : BitVec 3) (dst : RM32) (imm : Word) (s : State) : Host.Outcome State Fault Refusal :=
  complete s do
    let t ← setRm32 s dst imm
    .ok (t.advance (1 + dst.mlen + 4))

end Sys2Proof.Machine
end

