-- ==== Sys2Proof/Machine/Stack.lean ====
section
/-! DEFINITION. Stack instructions (43_stack.md R190 to R194). None reads or writes a flag. -/

namespace Sys2Proof.Machine

/-- A push of a value taken before ESP changes (R190, R192, R193; log 15). -/
def pushThenAdvance (s : State) (v : Word) (len : Nat) : Host.Outcome State Fault Refusal :=
  complete s do
    let t ← push32 s v
    .ok (t.advance len)

/-- PUSH r32 (R190): PUSH ESP pushes the old ESP (log 16). -/
def execPushR32 (r : Reg) (s : State) : Host.Outcome State Fault Refusal := pushThenAdvance s (s.reg r) 1

/-- POP r32 (R191): the register is written after ESP, so POP ESP ends with the popped value (log 16). -/
def execPopR32 (r : Reg) (s : State) : Host.Outcome State Fault Refusal :=
  complete s do
    let (v, t) ← pop32 s
    .ok ((t.setReg r v).advance 1)

/-- PUSH imm32 (R192). -/
def execPushImm32 (imm : Word) (s : State) : Host.Outcome State Fault Refusal := pushThenAdvance s imm 5

/-- PUSH imm8 (R193): sign-extended, a full word is pushed. -/
def execPushImm8 (imm : Byte) (s : State) : Host.Outcome State Fault Refusal := pushThenAdvance s (sext32 imm) 2

/-- LEAVE (R194): `esp = ebp; ebp = pop()`; the old ESP is not used. -/
def execLeave (s : State) : Host.Outcome State Fault Refusal :=
  complete s do
    let v ← s.memory.read32 (s.reg .ebp).toNat
    .ok (((s.setReg .ebp v).setReg .esp (s.reg .ebp + 4#32)).advance 1)

end Sys2Proof.Machine
end

