-- ==== Sys2Proof/Machine/Fetch.lean ====
section
/-! DEFINITION. Fetching and decoding at EIP (40_execution_core.md R120, R124) and loading the image (70_reset_and_hazards.md
R290). -/

namespace Sys2Proof.Machine

/-- The halt a decoding failure at `pc0` raises (60_exceptions.md R261, R264). -/
def haltOfDecodeError (pc0 : Word) : DecodeError → HaltReason
  | .outOfBytes off => .outOfBounds (pc0.toNat + off)
  | .unmappedOpcode b => .unimplementedOpcode b
  | .unmappedGroup g n => .unimplementedGroupExtension g n
  | .sibForm m => .unimplementedAddressingForm m
  | .badRegisterIndex i => .invalidRegisterIndex i

/-- The instruction bytes at EIP: as many as the longest instruction has, fewer at the end of memory (R80, R124). -/
def State.instrBytes (s : State) : List Byte := s.memory.window s.eip.toNat maxInstrLength

/-- The trace event of a step: after the opcode byte is read and before dispatch, unless QUIET (R120, R135). -/
def State.traced (s : State) : State :=
  match s.quiet, s.instrBytes with
  | false, op :: _ => s.emit (.trace s.eip op)
  | _, _ => s

/-- The instruction at EIP, or the halt its bytes raise. All its bytes are read before it has any effect (R62, R132). -/
def State.fetched (s : State) : Except HaltReason Instr :=
  match decode s.instrBytes with
  | .ok (i, _) => .ok i
  | .error e => .error (haltOfDecodeError s.eip e)

/-- `s` running with the bytes of `bs` stored where the next instruction is fetched. -/
def State.withBytesAtEip (s : State) (bs : List Byte) : State :=
  { s with memory := s.memory.setBytes s.eip.toNat bs, runState := .running }

/-- The reset sequence of R290 for the host's parameters (R14, R15): memory of `memSize` zero bytes with the 512-byte image at
0x7C00, ESP at `initEsp`, EIP at the image. It is the machine's reset for `0x7E00 <= memSize <= 2^32` (R292). -/
def State.boot (memSize : Nat) (initEsp : Word) (image : Vector Byte 512) (quiet : Bool) (input : InputSource) : State :=
  { regs := Regs.reset initEsp
    eip := Config.initEip
    eflags := 0#16
    memory := ({ size := memSize, cells := [] } : Memory).setBytes Config.loadAddr image.toList
    runState := .running
    quiet := quiet
    input := input
    freeIndex := 0
    events := [] }

end Sys2Proof.Machine
end

