-- ==== Sys2Proof/Machine/Step.lean ====
section
/-! DEFINITION. One step of the CORE (40_execution_core.md R120 to R123), and the host's way of placing one instruction. -/

namespace Sys2Proof.Machine

/-- Step of R120. `Halted` is absorbing: no step is taken from it and no state changes (R123, log 12). -/
def step (s : State) : Host.Outcome State Fault Refusal :=
  match s.runState with
  | .halted _ => .next s
  | .running =>
    match s.fetched with
    | .error r => .next (s.traced.halt r).endStep
    | .ok i => endOutcome (exec i s.traced)

/-- `s` with the instruction of an opcode-table word stored where `step` fetches (log 34): its bytes in memory order, then zeros up
to the longest instruction. -/
def State.withFetchWord (s : State) (nbits w : Nat) : State := s.withBytesAtEip (tableBytes nbits w)

end Sys2Proof.Machine
end

