-- ==== Sys2Proof/Safety.lean ====
section
/-! DEFINITION. The terms claims are stated in: how a run ends (70_reset_and_hazards.md R294), the machine's invariants, where an
instruction stands in memory, and what an instruction leaves unchanged. -/

namespace Sys2Proof.Machine

/-! ## The end of a run -/

/-- The run has ended successfully (R294). -/
def State.endedNormally (s : State) : Prop := s.runState = .halted .normalEnd

/-- The run has ended with a reason other than NormalEnd (R260). -/
def State.failed (s : State) : Prop := ∃ r, s.runState = .halted r ∧ r ≠ .normalEnd

/-- One completed step. -/
def StepsTo (s t : State) : Prop := step s = .next t

/-- A safe step: it completes, and not in a failed state. -/
def SafeStep (s : State) : Prop := ∃ t, StepsTo s t ∧ ¬ t.failed

/-- The states of runs from some reset of the machine (R290, R292). -/
inductive Reachable : State → Prop where
  | boot (memSize : Nat) (initEsp : Word) (image : Vector Byte 512) (quiet : Bool) (input : InputSource) :
      Config.minMemSize ≤ memSize → memSize ≤ Config.maxMemSize →
      Reachable (State.boot memSize initEsp image quiet input)
  | step (s t : State) : Reachable s → StepsTo s t → Reachable t

/-! ## Invariants -/

/-- Memory is in its canonical form, MEM_SIZE is in its range (R15, R292), and the unmodelled bits of EFLAGS are zero (R30). -/
def MachineInv (s : State) : Prop :=
  s.memory.wf = true ∧ Config.minMemSize ≤ s.memory.size ∧ s.memory.size ≤ Config.maxMemSize ∧
  s.eflags &&& ~~~flagsMask = 0#16

/-- The seven values EFLAGS can hold: its reset value and what subtractions leave (95_test_vectors.md V1). -/
def reachableFlagWords : List (BitVec 16) := [0x0000#16, 0x0001#16, 0x0080#16, 0x0081#16, 0x00C0#16, 0x0801#16, 0x0880#16]

/-! ## An instruction in memory -/

/-- The bytes `bs` stand in memory from address `a` on. -/
def BytesAt (m : Memory) (a : Nat) (bs : List Byte) : Prop :=
  a + bs.length ≤ m.size ∧ ∀ k, (h : k < bs.length) → m.byte (a + k) = bs[k]

/-- The machine is running and the bytes `bs` stand at EIP. -/
def RunsBytes (s : State) (bs : List Byte) : Prop := s.runState = .running ∧ BytesAt s.memory s.eip.toNat bs

/-- The next step halts with `r` and has no other effect: the reason is reported, after the step's trace (R132, R263). -/
def HaltsWith (r : HaltReason) (s : State) : Prop :=
  step s = .next { s with runState := .halted r, events := s.traced.events ++ [.haltReport r s.regs s.eip] }

/-- The leading bytes of R89 with an instruction or a group, as the rule counts them. -/
def mappedLeadingBytes : List Byte :=
  [0x01, 0x3B, 0x3C, 0x3D] ++ [0x40, 0x41, 0x42, 0x43, 0x44, 0x45, 0x46, 0x47] ++
  [0x50, 0x51, 0x52, 0x53, 0x54, 0x55, 0x56, 0x57, 0x58, 0x59, 0x5A, 0x5B, 0x5C, 0x5D, 0x5E, 0x5F] ++
  [0x68, 0x6A] ++ [0x70, 0x71, 0x72, 0x73, 0x74, 0x75, 0x78, 0x79, 0x7C, 0x7E] ++ [0x83, 0x88, 0x89, 0x8A, 0x8B] ++
  [0xB0, 0xB1, 0xB2, 0xB3, 0xB4, 0xB5, 0xB6, 0xB7, 0xB8, 0xB9, 0xBA, 0xBB, 0xBC, 0xBD, 0xBE, 0xBF] ++
  [0xC3, 0xC7, 0xC9, 0xCD, 0xE8, 0xE9, 0xEB, 0xEC, 0xEE, 0xFF]

/-- The leading bytes whose instructions have a ModRM byte (R81, R85). -/
def modRMLeadingBytes : List Byte := [0x01, 0x3B, 0x83, 0x88, 0x89, 0x8A, 0x8B, 0xC7, 0xFF]

/-- The length `mlen` of the ModRM group of an instruction that has one (R81, R84). -/
def groupLength : Instr → Option Nat
  | .addRm32R32 dst _ => some dst.mlen
  | .cmpR32Rm32 _ b => some b.mlen
  | .cmpAlImm8 _ => none
  | .cmpEaxImm32 _ => none
  | .incR32 _ => none
  | .pushR32 _ => none
  | .popR32 _ => none
  | .pushImm32 _ => none
  | .pushImm8 _ => none
  | .jo _ => none
  | .jno _ => none
  | .jc _ => none
  | .jnc _ => none
  | .jz _ => none
  | .jnz _ => none
  | .js _ => none
  | .jns _ => none
  | .jl _ => none
  | .jle _ => none
  | .addRm32Imm8 dst _ => some dst.mlen
  | .subRm32Imm8 dst _ => some dst.mlen
  | .movRm8R8 dst _ => some dst.mlen
  | .movRm32R32 dst _ => some dst.mlen
  | .movR8Rm8 _ src => some src.mlen
  | .movR32Rm32 _ src => some src.mlen
  | .movR8Imm8 _ _ => none
  | .movR32Imm32 _ _ => none
  | .ret => none
  | .movRm32Imm32 _ dst _ => some dst.mlen
  | .leave => none
  | .int _ => none
  | .callRel32 _ => none
  | .jmpRel32 _ => none
  | .jmpRel8 _ => none
  | .inAlDx => none
  | .outDxAl => none
  | .incRm32 dst => some dst.mlen

/-- The offset of the field that byte `k` belongs to, in an instruction with a ModRM group of `mlen` bytes: the opcode at 0, the
ModRM byte at 1, the displacement at 2, the immediate at `1 + mlen` (R81, R84, R124). -/
def groupFieldOffset (mlen k : Nat) : Nat := if k < 2 then k else if k < 1 + mlen then 2 else 1 + mlen

/-- The offset of the field that byte `k` of an instruction belongs to: without a ModRM group, the opcode at 0 and the one field
after it at 1 (R81, R124). -/
def fieldOffset (i : Instr) (k : Nat) : Nat :=
  match groupLength i with
  | some mlen => groupFieldOffset mlen k
  | none => if k = 0 then 0 else 1

/-! ## Kinds of instruction and event -/

/-- The subtraction-class instructions, the writers of the flags (R31; SUB by the spec's decision D9, log 19). -/
def isSubtraction : Instr → Bool
  | .cmpR32Rm32 _ _ => true
  | .cmpAlImm8 _ => true
  | .cmpEaxImm32 _ => true
  | .subRm32Imm8 _ _ => true
  | _ => false

/-- The ten conditional jumps of R210 with one displacement. -/
def conditionalJumps (rel : Byte) : List Instr :=
  [.jo rel, .jno rel, .jc rel, .jnc rel, .jz rel, .jnz rel, .js rel, .jns rel, .jl rel, .jle rel]

/-- Each conditional jump with its condition on the flags (R210). -/
def jumpConditions (rel : Byte) (s : State) : List (Instr × Prop) :=
  [(.jo rel, s.flag .overflow = true), (.jno rel, s.flag .overflow = false),
   (.jc rel, s.flag .carry = true), (.jnc rel, s.flag .carry = false),
   (.jz rel, s.flag .zero = true), (.jnz rel, s.flag .zero = false),
   (.js rel, s.flag .sign = true), (.jns rel, s.flag .sign = false),
   (.jl rel, s.flag .sign ≠ s.flag .overflow),
   (.jle rel, s.flag .zero = true ∨ s.flag .sign ≠ s.flag .overflow)]

def isTrace : Event → Bool
  | .trace _ _ => true
  | _ => false

/-! ## Frames -/

/-- Every general register is unchanged except those listed. -/
def SameRegsBut (rs : List Reg) (s t : State) : Prop := ∀ r, r ∉ rs → t.reg r = s.reg r

/-- Every byte of memory is unchanged, and its size. -/
def SameMemory (s t : State) : Prop :=
  t.memory.size = s.memory.size ∧ ∀ k, t.memory.byte k = s.memory.byte k

/-- Every byte of memory outside the `n` bytes at `a` is unchanged, and its size. -/
def SameMemoryBut (a n : Nat) (s t : State) : Prop :=
  t.memory.size = s.memory.size ∧ ∀ k, k < a ∨ a + n ≤ k → t.memory.byte k = s.memory.byte k

/-- The whole flags word is unchanged, reserved bits too. -/
def SameFlags (s t : State) : Prop := t.eflags = s.eflags

/-- The run state, QUIET, the input source, the free-value counter and the events are unchanged. -/
def SameOutside (s t : State) : Prop :=
  t.runState = s.runState ∧ t.quiet = s.quiet ∧ t.input = s.input ∧ t.freeIndex = s.freeIndex ∧ t.events = s.events

/-- The bits of a parent register an alias names (R23). -/
def aliasMask (r : Reg8) : Word := if Reg8.isHigh r then 0x0000FF00#32 else 0x000000FF#32

/-- The word `v` is stored little-endian at `a`, and no other byte changes (R51, R52). -/
def WordStored (a : Nat) (v : Word) (s t : State) : Prop :=
  (∀ k, k < 4 → t.memory.byte (a + k) = byteOf v k) ∧ SameMemoryBut a 4 s t

/-- The byte `v` is stored at `a`, and no other byte changes (R51). -/
def ByteStored (a : Nat) (v : Byte) (s t : State) : Prop :=
  t.memory.byte a = v ∧ SameMemoryBut a 1 s t

/-- The alias `r` holds `v`, the other 24 bits of its parent and every other register are unchanged (R24). -/
def Reg8Becomes (r : Reg8) (v : Byte) (s t : State) : Prop :=
  t.reg8 r = v ∧ t.reg (Reg8.parent r) &&& ~~~aliasMask r = s.reg (Reg8.parent r) &&& ~~~aliasMask r ∧
  SameRegsBut [Reg8.parent r] s t

/-- The 32-bit operand `o` of `s` holds `v`: the register, or the word at the address the operand has in `s`; no other register
and no other byte changes (R127). -/
def Rm32Becomes (o : RM32) (v : Word) (s t : State) : Prop :=
  match o with
  | .reg r => t.reg r = v ∧ SameRegsBut [r] s t ∧ SameMemory s t
  | .mem m => SameRegsBut [] s t ∧ WordStored (effAddr s m).toNat v s t

/-- The 8-bit operand `o` of `s` holds `v`; no other register bit and no other byte changes (R129). -/
def Rm8Becomes (o : RM8) (v : Byte) (s t : State) : Prop :=
  match o with
  | .reg r => Reg8Becomes r v s t ∧ SameMemory s t
  | .mem m => SameRegsBut [] s t ∧ ByteStored (effAddr s m).toNat v s t

/-- The operand is a register, or its four bytes lie within memory (R56, R127). -/
def Rm32InMemory (s : State) : RM32 → Prop
  | .reg _ => True
  | .mem m => (effAddr s m).toNat + 4 ≤ s.memory.size

/-- The operand is an alias, or its byte lies within memory (R56, R129). -/
def Rm8InMemory (s : State) : RM8 → Prop
  | .reg _ => True
  | .mem m => (effAddr s m).toNat + 1 ≤ s.memory.size

/-- The value of a 32-bit operand: the register, or the word at its address (R127). -/
def rm32Value (s : State) : RM32 → Word
  | .reg r => s.reg r
  | .mem m => s.memory.word (effAddr s m).toNat

/-- The value of an 8-bit operand: the alias, or the byte at its address (R129). -/
def rm8Value (s : State) : RM8 → Byte
  | .reg r => s.reg8 r
  | .mem m => s.memory.byte (effAddr s m).toNat

/-- The flags word after comparing or subtracting `b` from `a` (R150): Carry is an unsigned borrow, Zero is equality, Sign is the
complement of the difference's top bit, Overflow is a signed difference out of range; no other bit changes. -/
def FlagsOfSub (a b : Word) (s t : State) : Prop :=
  (t.flag .carry = true ↔ a.toNat < b.toNat) ∧ (t.flag .zero = true ↔ a = b) ∧
  (t.flag .sign = true ↔ (a - b).msb = false) ∧
  (t.flag .overflow = true ↔ a.toInt - b.toInt < -2 ^ 31 ∨ 2 ^ 31 ≤ a.toInt - b.toInt) ∧
  t.eflags &&& ~~~flagsMask = s.eflags &&& ~~~flagsMask

end Sys2Proof.Machine
end

