-- ==== Sys2Proof/Certificates/Slice0/Obligations.lean ====
section
/-! DEFINITION. The statements for the provers. A premise `s.memory.wf = true` is the canonical form of memory, an invariant of the
machine (Obligations.StepKeepsTheMachineInvariant). -/

open Sys2Proof Sys2Proof.Machine

/-! ## Reset (10_state.md R40, 70_reset_and_hazards.md R290) -/

/-- The state after reset. EIP, the run state and the empty output are the spec's; MEM_SIZE and INIT_ESP (log 1, log 2), the zero
registers, flags and bytes (log 3, log 4, log 5: the spec's decisions D3, D4, D5) are the model's choice. -/
def Obligations.ResetStateHoldsTheResetValues : Prop :=
  State.reset.eip = 0x7C00#32 ∧ State.reset.runState = .running ∧ State.reset.events = [] ∧
  (∀ r, r ≠ Reg.esp → State.reset.reg r = 0#32) ∧ State.reset.reg .esp = 0x7C00#32 ∧ State.reset.eflags = 0#16 ∧
  State.reset.memory.size = 0x100000 ∧ ∀ a, State.reset.memory.byte a = 0#8

/-- The reset sequence of R290 for every MEM_SIZE that holds the image, every INIT_ESP, image, QUIET and input. The zero registers,
flags and bytes are the spec's decisions D3, D4, D5 (log 3, log 4, log 5). -/
def Obligations.BootLoadsTheImageVerbatim : Prop :=
  ∀ (memSize : Nat) (initEsp : Word) (image : Vector Byte 512) (quiet : Bool) (input : InputSource),
    0x7E00 ≤ memSize →
    ∀ s, s = State.boot memSize initEsp image quiet input →
      s.eip = 0x7C00#32 ∧ s.runState = .running ∧ s.reg .esp = initEsp ∧ (∀ r, r ≠ Reg.esp → s.reg r = 0#32) ∧
      s.eflags = 0#16 ∧ s.memory.size = memSize ∧ s.quiet = quiet ∧ s.input = input ∧ s.events = [] ∧
      (∀ k, (h : k < 512) → s.memory.byte (0x7C00 + k) = image[k]) ∧
      ∀ a, a < 0x7C00 ∨ 0x7E00 ≤ a → s.memory.byte a = 0#8

/-! ## Invariants -/

/-- The invariants hold at reset (of the values log 1 to log 5 name). -/
def Obligations.ResetMeetsTheInvariants : Prop :=
  MachineInv State.reset ∧ State.reset.eflags ∈ reachableFlagWords

/-- Every step keeps memory canonical (the model's own form, log 5), its size in the range of R15 and the unmodelled flag bits zero
(R30); and the size never changes (R35). -/
def Obligations.StepKeepsTheMachineInvariant : Prop :=
  ∀ s t, MachineInv s → step s = .next t → MachineInv t ∧ t.memory.size = s.memory.size

/-- Every step keeps EFLAGS one of the seven values of 95_test_vectors.md V1: with Zero set there is no Carry, no Overflow, and Sign
is set (R32; the list rests on the spec's decisions D4, D7, D9, D10, log 4, log 18, log 19, log 20). -/
def Obligations.StepKeepsTheReachableFlagWords : Prop :=
  ∀ s t, s.eflags ∈ reachableFlagWords → step s = .next t → t.eflags ∈ reachableFlagWords

/-- Every state of every run, from every reset, meets the invariants. The flags word at reset is the spec's decision D4 (log 4), the
list of flag words rests on D7, D9, D10 (log 18, log 19, log 20), the sentinel on D27 (log 28), and a run is a sequence of steps and
nothing else (log 36). -/
def Obligations.EveryReachableStateMeetsTheInvariants : Prop :=
  ∀ s, Reachable s → MachineInv s ∧ s.eflags ∈ reachableFlagWords ∧ (s.runState = .running → s.eip ≠ 0#32)

/-! ## Encoding -/

/-- Decoding the bytes of any well-formed instruction gives it back, with every operand (R81 to R89). -/
def Obligations.DecodeOfEncodeIsTheInstruction : Prop :=
  ∀ (i : Instr) (rest : List Byte), i.wellFormed = true → decode (encode i ++ rest) = .ok (i, rest)

/-- Whatever decodes is a well-formed instruction, and the bytes were exactly its encoding: no two byte sequences are read as one
instruction, and no bit is dropped (R94, R96). -/
def Obligations.DecodedBytesAreTheEncoding : Prop :=
  ∀ (bs rest : List Byte) (i : Instr), decode bs = .ok (i, rest) → i.wellFormed = true ∧ bs = encode i ++ rest

/-- An encoding has the length of R95, from 1 to 10 bytes (R80). -/
def Obligations.EncodingHasTheInstructionLength : Prop :=
  ∀ i : Instr, (encode i).length = i.length ∧ 1 ≤ i.length ∧ i.length ≤ 10

/-- The spec's own encoded words, one or more of each family, decode to the instructions it names. -/
def Obligations.SpecWordsDecodeToTheirInstructions : Prop :=
  decode [0x01, 0xC8] = .ok (.addRm32R32 (.reg .eax) .ecx, []) ∧
  decode [0x3B, 0xCA] = .ok (.cmpR32Rm32 .ecx (.reg .edx), []) ∧
  decode [0x83, 0xEC, 0x10] = .ok (.subRm32Imm8 (.reg .esp) 0x10#8, []) ∧
  decode [0xC7, 0x45, 0xFC, 0x07, 0x00, 0x00, 0x00] = .ok (.movRm32Imm32 0#3 (.mem (.baseDisp8 .ebp 0xFC#8)) 7#32, []) ∧
  decode [0x88, 0x08] = .ok (.movRm8R8 (.mem (.base .eax)) .cl, []) ∧
  decode [0x6A, 0x2A, 0x58] = .ok (.pushImm8 0x2A#8, [0x58#8]) ∧
  decode [0xE9, 0xE5, 0x83, 0xFF, 0xFF] = .ok (.jmpRel32 0xFFFF83E5#32, []) ∧
  decode [0xCD, 0x10] = .ok (.int 0x10#8, [])

/-- A proper part of an instruction's bytes never decodes: what is missing is reported, at the offset of the field that does not fit.
That is 0 for the opcode, 1 for the ModRM byte or the field straight after the opcode, 2 for the displacement, `1 + mlen` for the
immediate after a ModRM group (R56, R124; the payload is the spec's decisions D17, D28, log 23). -/
def Obligations.NoProperPartOfAnInstructionDecodes : Prop :=
  ∀ (i : Instr) (k : Nat), i.wellFormed = true → k < (encode i).length →
    decode ((encode i).take k) = .error (.outOfBytes (fieldOffset i k))

/-- No leading byte has two rows (R89). -/
def Obligations.OpcodeTableRowsDoNotOverlap : Prop :=
  ∀ b : Byte, (opcodeTable.filter (·.covers b)).length ≤ 1

/-! ## The step (40_execution_core.md R120 to R123, R132) -/

/-- A running step is `exec` of the instruction its bytes decode to, on the traced state, and then the end of the step (R120). -/
def Obligations.StepIsExecOfTheDecodedInstruction : Prop :=
  ∀ (s : State) (i : Instr) (rest : List Byte), s.runState = .running → decode s.instrBytes = .ok (i, rest) →
    step s = endOutcome (exec i s.traced)

/-- When the bytes at EIP are those of a well-formed instruction, the step runs it; before it a trace event is emitted unless QUIET,
and nothing else (R120, R135; the trace is the spec's decision D24, log 31). -/
def Obligations.StepRunsTheInstructionAtEip : Prop :=
  ∀ (s : State) (i : Instr), i.wellFormed = true → RunsBytes s (encode i) →
    step s = endOutcome (exec i s.traced) ∧
    (s.quiet = true → s.traced = s) ∧
    (s.quiet = false → s.traced = { s with events := s.events ++ [.trace s.eip (s.memory.byte s.eip.toNat)] })

/-- The bytes of an instruction stored at EIP, whatever was there before, are what the next step fetches: there is no stale
instruction stream (R62, the spec's decision D22, log 33). -/
def Obligations.StoredInstructionIsFetchedNext : Prop :=
  ∀ (s : State) (i : Instr), i.wellFormed = true → s.memory.wf = true →
    s.eip.toNat + (encode i).length ≤ s.memory.size →
    (s.setMemory (s.memory.setBytes s.eip.toNat (encode i))).fetched = .ok i

/-- Halted is absorbing: any number of steps leaves a halted state as it is (R123; what a step from it is, log 12). -/
def Obligations.HaltedIsAbsorbing : Prop :=
  ∀ (n : Nat) (s : State) (r : HaltReason), s.runState = .halted r → Host.Core.run Sys2Proof.core n s = .next s

/-- The sentinel: after a completed instruction EIP = 0 ends the run with NormalEnd, one report and no other change; any other EIP
leaves the state as the instruction left it (R122, the spec's decision D27, log 28; the report's place, log 13). -/
def Obligations.CompletedInstructionAtZeroEndsTheRun : Prop :=
  ∀ (s t : State) (i : Instr), s.runState = .running → s.fetched = .ok i → exec i s.traced = .next t → t.runState = .running →
    (t.eip = 0#32 → step s = .next { t with
      runState := .halted .normalEnd, events := t.events ++ [.haltReport .normalEnd t.regs 0#32] }) ∧
    (t.eip ≠ 0#32 → step s = .next t)

/-- No step leaves a running machine at address 0, so address 0 is never fetched from (R29, R122; the spec's
decision D27, log 28). -/
def Obligations.NoStepLeavesARunningMachineAtZero : Prop :=
  ∀ s t, step s = .next t → t.runState = .running → t.eip ≠ 0#32

/-- Halts are precise: a step that halts with a reason other than NormalEnd changes the run state and the events only, and EIP stays
at the instruction (R132, R263; the spec's decision D13, log 11; the report's place, log 13). -/
def Obligations.FailingHaltsChangeNothing : Prop :=
  ∀ (s t : State) (r : HaltReason), s.runState = .running → step s = .next t → t.runState = .halted r → r ≠ .normalEnd →
    t = { s with runState := .halted r, events := s.traced.events ++ [.haltReport r s.regs s.eip] }

/-- A step completes unless it is an IN from port 0x03F8 whose input source never answers (R18, R274, R297; log 10). That IN completes
on an empty line, at the end of input and on a character above 255 is the model's choice (D20, N15, U25, log 9); a step from a halted
state answers that state (log 12). -/
def Obligations.StepCompletesUnlessInputNeverAnswers : Prop :=
  ∀ s, (∃ t, step s = .next t) ∨
    (step s = .fault .inputNeverAnswers ∧ s.runState = .running ∧ s.fetched = .ok .inAlDx ∧ s.port = 0x03F8#16 ∧
      s.input.lines = [] ∧ s.input.after = .silent)

/-- No instruction stream reaches the invalid-index condition (R26; log 30). -/
def Obligations.NoStepReportsAnInvalidRegisterIndex : Prop :=
  ∀ (s t : State) (k : Nat), s.runState = .running → step s = .next t → t.runState ≠ .halted (.invalidRegisterIndex k)

/-- A leading byte outside the 71 of R89 halts the step with UnimplementedOpcode, EIP still at it and nothing else changed; the 71
have a handler (R91). -/
def Obligations.UnmappedLeadingByteHalts : Prop :=
  (∀ (s : State) (b : Byte), RunsBytes s [b] → b ∉ mappedLeadingBytes → HaltsWith (.unimplementedOpcode b) s) ∧
  mappedLeadingBytes.Nodup ∧ mappedLeadingBytes.length = 71 ∧ ∀ b ∈ mappedLeadingBytes, (dispatch b).isSome = true

/-- The 24 ModRM bytes of the SIB form halt every instruction that has a ModRM byte, with no other effect; with `mod == 3` the same
`rm` is the register operand ESP in each of them, or AH in the two 8-bit ones (R85; that this halt has no other effect is the spec's
decision D13, log 11; the number of AH is general knowledge, G2, log 17; that C7 ignores `reg` is D18, log 24). -/
def Obligations.SibFormHalts : Prop :=
  (∀ (s : State) (op m : Byte), op ∈ modRMLeadingBytes → m &&& 0xC7#8 ∈ [0x04#8, 0x44#8, 0x84#8] → RunsBytes s [op, m] →
    HaltsWith (.unimplementedAddressingForm m) s) ∧
  ∀ (reg : BitVec 3) (imm8 : Byte) (imm32 : Word) (rest : List Byte),
    decode (0x01#8 :: modRMByte 3#2 reg 4#3 :: rest) = .ok (.addRm32R32 (.reg .esp) (Reg.ofCode reg), rest) ∧
    decode (0x3B#8 :: modRMByte 3#2 reg 4#3 :: rest) = .ok (.cmpR32Rm32 (Reg.ofCode reg) (.reg .esp), rest) ∧
    decode (0x83#8 :: modRMByte 3#2 0#3 4#3 :: imm8 :: rest) = .ok (.addRm32Imm8 (.reg .esp) imm8, rest) ∧
    decode (0x83#8 :: modRMByte 3#2 5#3 4#3 :: imm8 :: rest) = .ok (.subRm32Imm8 (.reg .esp) imm8, rest) ∧
    decode (0x88#8 :: modRMByte 3#2 reg 4#3 :: rest) = .ok (.movRm8R8 (.reg .ah) (Reg8.ofCode reg), rest) ∧
    decode (0x89#8 :: modRMByte 3#2 reg 4#3 :: rest) = .ok (.movRm32R32 (.reg .esp) (Reg.ofCode reg), rest) ∧
    decode (0x8A#8 :: modRMByte 3#2 reg 4#3 :: rest) = .ok (.movR8Rm8 (Reg8.ofCode reg) (.reg .ah), rest) ∧
    decode (0x8B#8 :: modRMByte 3#2 reg 4#3 :: rest) = .ok (.movR32Rm32 (Reg.ofCode reg) (.reg .esp), rest) ∧
    decode (0xC7#8 :: modRMByte 3#2 reg 4#3 :: (leBytes imm32 ++ rest)) = .ok (.movRm32Imm32 reg (.reg .esp) imm32, rest) ∧
    decode (0xFF#8 :: modRMByte 3#2 0#3 4#3 :: rest) = .ok (.incRm32 (.reg .esp), rest)

/-- After a ModRM group that decodes, a selector without an operation halts the step with UnimplementedGroupExtension and no other
change, whatever the operand and whatever follows (R92; 'no other change' is the spec's decision D13, log 11; that the selector is
tested before the immediate is read is D15, log 14). -/
def Obligations.UnmappedGroupSelectorHalts : Prop :=
  ∀ (s : State) (o : RM32) (n : BitVec 3), o.wellFormed = true →
    (RunsBytes s (0x83#8 :: o.encode n) → n ∉ [0#3, 5#3] → HaltsWith (.unimplementedGroupExtension 0x83#8 n) s) ∧
    (RunsBytes s (0xFF#8 :: o.encode n) → n ≠ 0#3 → HaltsWith (.unimplementedGroupExtension 0xFF#8 n) s)

/-- A step halts with OutOfBounds, and nothing else changes, when EIP is at or beyond MEM_SIZE, and when memory ends inside an
instruction or inside the ModRM group after any opcode that has one, whatever its `reg` field selects. The payload is the first
address of the opcode or of the field that does not fit (R29, R56; the spec's decisions D13, D15, D17, D28, D29, log 11, log 14,
log 23, log 27). -/
def Obligations.FetchBeyondMemoryHalts : Prop :=
  (∀ s : State, s.runState = .running → s.memory.size ≤ s.eip.toNat → HaltsWith (.outOfBounds s.eip.toNat) s) ∧
  (∀ (s : State) (i : Instr) (k : Nat), i.wellFormed = true → k < (encode i).length → RunsBytes s ((encode i).take k) →
    s.eip.toNat + k = s.memory.size → HaltsWith (.outOfBounds (s.eip.toNat + fieldOffset i k)) s) ∧
  ∀ (s : State) (op : Byte) (o : RM32) (n : BitVec 3) (k : Nat), op ∈ modRMLeadingBytes → o.wellFormed = true →
    k < 1 + o.mlen → RunsBytes s ((op :: o.encode n).take k) → s.eip.toNat + k = s.memory.size →
    HaltsWith (.outOfBounds (s.eip.toNat + groupFieldOffset o.mlen k)) s

/-! ## Rules about the whole machine -/

/-- Only the four subtraction-class instructions change the flags word; completed, they write all four flags whatever these were;
only the ten conditional jumps depend on the flags, and each of them does (R31; that SUB r/m32,imm8 is among the four is the spec's
decision D9, log 19). -/
def Obligations.FlagsHaveFourWritersAndTenReaders : Prop :=
  (∀ (i : Instr) (s t : State), isSubtraction i = false → exec i s = .next t → t.eflags = s.eflags) ∧
  (∀ (i : Instr) (s t t' : State) (w : BitVec 16), isSubtraction i = true → s.runState = .running →
    exec i s = .next t → t.runState = .running → exec i (s.setEflags w) = .next t' → ∀ k, t'.flag k = t.flag k) ∧
  (∀ (i : Instr) (s t : State) (w : BitVec 16), (∀ rel, i ∉ conditionalJumps rel) → exec i s = .next t →
    ∃ t', exec i (s.setEflags w) = .next t' ∧ t'.setEflags 0#16 = t.setEflags 0#16) ∧
  ∀ i ∈ conditionalJumps 0x10#8, ∃ (s t t' : State) (w : BitVec 16),
    exec i s = .next t ∧ exec i (s.setEflags w) = .next t' ∧ t.eip ≠ t'.eip

/-- Only IN consumes input, only INT and OUT emit, and no instruction changes QUIET (R39, R244 to R246; a drawn byte is the model's,
log 32). -/
def Obligations.OnlyIoInstructionsTouchTheAgents : Prop :=
  ∀ (i : Instr) (s t : State), exec i s = .next t →
    t.quiet = s.quiet ∧ (i ≠ .inAlDx → t.input = s.input ∧ t.freeIndex = s.freeIndex) ∧
    (i ≠ .outDxAl → (∀ v, i ≠ .int v) → t.events = s.events)

/-- Output is never taken back: a step appends to the events (R18, R64). -/
def Obligations.EventsOnlyGrow : Prop :=
  ∀ s t, step s = .next t → ∃ es, t.events = s.events ++ es

/-- QUIET has no effect but on the trace events: the same step with the other setting gives the same state and the same events apart
from traces (R14, R15, R135). -/
def Obligations.QuietOnlySuppressesTraces : Prop :=
  ∀ (s t : State) (q : Bool), step s = .next t →
    ∃ t', step { s with quiet := q } = .next t' ∧ { t' with quiet := t.quiet, events := t.events } = t ∧ t'.quiet = q ∧
      t'.events.filter (fun e => !isTrace e) = t.events.filter (fun e => !isTrace e)

/-! ## Registers, memory, addresses -/

/-- Writing an 8-bit alias touches its 8-bit slice of the parent register; the other 24 bits, and everything else, are kept (R24). -/
def Obligations.AliasWriteTouchesOnlyItsSlice : Prop :=
  (∀ (s : State) (r : Reg8) (v : Byte), Reg8Becomes r v s (s.setReg8 r v) ∧ SameMemory s (s.setReg8 r v) ∧
    SameFlags s (s.setReg8 r v) ∧ SameOutside s (s.setReg8 r v) ∧ (s.setReg8 r v).eip = s.eip) ∧
  ∀ s : State, s.reg .eax = 0x12345678#32 →
    (s.setReg8 .al 0xAB#8).reg .eax = 0x123456AB#32 ∧ ((s.setReg8 .al 0xAB#8).setReg8 .ah 0xCD#8).reg .eax = 0x1234CDAB#32

/-- MemRead and MemWrite of 1 and 4 bytes: little-endian, bounds-checked as a whole, no other byte changed (R51; that a straddling
access fails whole, with its first address as payload, is the spec's decision D17, log 23); and they keep the canonical form, which
is the model's own (log 5). -/
def Obligations.MemoryAccessesReadAndWriteTheirBytes : Prop :=
  ∀ (m : Memory) (a : Nat), m.wf = true →
    (a + 1 ≤ m.size → m.read8 a = .ok (m.byte a)) ∧
    (m.size < a + 1 → m.read8 a = .error (.outOfBounds a) ∧ ∀ v, m.write8 a v = .error (.outOfBounds a)) ∧
    (a + 4 ≤ m.size → ∃ w, m.read32 a = .ok w ∧ ∀ k, k < 4 → byteOf w k = m.byte (a + k)) ∧
    (m.size < a + 4 → m.read32 a = .error (.outOfBounds a) ∧ ∀ v, m.write32 a v = .error (.outOfBounds a)) ∧
    (∀ v, a + 1 ≤ m.size → ∃ m', m.write8 a v = .ok m' ∧ m'.wf = true ∧ m'.size = m.size ∧ m'.byte a = v ∧
      ∀ k, k ≠ a → m'.byte k = m.byte k) ∧
    ∀ v, a + 4 ≤ m.size → ∃ m', m.write32 a v = .ok m' ∧ m'.wf = true ∧ m'.size = m.size ∧
      (∀ k, k < 4 → m'.byte (a + k) = byteOf v k) ∧ ∀ k, k < a ∨ a + 4 ≤ k → m'.byte k = m.byte k

/-- A 32-bit access is four byte accesses: a word written is read back byte by byte and whole, and four bytes written one by one are
the word they assemble to, the same memory as the word's own write (R52, R53). -/
def Obligations.MixedWidthAccessesSeeBytes : Prop :=
  ∀ (m m' : Memory) (a : Nat) (v : Word), m.wf = true → m.write32 a v = .ok m' →
    m'.read32 a = .ok v ∧ (∀ k, k < 4 → m'.read8 (a + k) = .ok (byteOf v k)) ∧
    (do
      let m1 ← m.write8 (a + 3) (byteOf v 3)
      let m2 ← m1.write8 (a + 2) (byteOf v 2)
      let m3 ← m2.write8 (a + 1) (byteOf v 1)
      m3.write8 a (byteOf v 0)) = .ok m'

/-- Equal memories are equal data: the canonical form, which is the model's own (log 5), is determined by the size and the
bytes. -/
def Obligations.CanonicalMemoryIsDeterminedByItsBytes : Prop :=
  ∀ m m' : Memory, m.wf = true → m'.wf = true → m.size = m'.size → (∀ a, m.byte a = m'.byte a) → m = m'

/-- The effective address: the absolute displacement, or the base register plus the displacement, read as signed, modulo 2^32 (R126;
the sum is the spec's decision D6, log 22). -/
def Obligations.EffectiveAddressIsBasePlusDisplacement : Prop :=
  ∀ (s : State) (r : Reg) (d8 : Byte) (d32 : Word),
    effAddr s (.abs d32) = d32 ∧ effAddr s (.base r) = s.reg r ∧
    ((effAddr s (.baseDisp8 r d8)).toNat : Int) = ((s.reg r).toNat + d8.toInt) % 2 ^ 32 ∧
    ((effAddr s (.baseDisp32 r d32)).toNat : Int) = ((s.reg r).toNat + d32.toInt) % 2 ^ 32

/-! ## Arithmetic and compare (41_arith_flags.md) -/

/-- ADD r/m32,r32, ADD r/m32,imm8 and INC r/m32 complete when their operand lies within memory: it holds the sum modulo 2^32, no
flag changes, EIP passes the instruction (R151, R156, R158; modulo: the spec's decision D6, log 22). -/
def Obligations.AddAndIncUpdateTheirOperandWithoutFlags : Prop :=
  ∀ (s : State) (dst : RM32) (src : Reg) (imm : Byte) (i : Instr) (v : Word) (len : Nat),
    s.memory.wf = true → Rm32InMemory s dst →
    (i, v, len) ∈ [(Instr.addRm32R32 dst src, rm32Value s dst + s.reg src, 1 + dst.mlen),
      (Instr.addRm32Imm8 dst imm, rm32Value s dst + imm.signExtend 32, 1 + dst.mlen + 1),
      (Instr.incRm32 dst, rm32Value s dst + 1#32, 1 + dst.mlen)] →
    ∃ t, exec i s = .next t ∧ Rm32Becomes dst v s t ∧ SameFlags s t ∧ SameOutside s t ∧
      t.eip = s.eip + BitVec.ofNat 32 len

/-- SUB r/m32,imm8 completes when its operand lies within memory: the operand holds the difference, and the flags are those of the
subtraction (R157, R150; that SUB writes the flags is the spec's decision D9, log 19, the Sign flag D7, log 18). -/
def Obligations.SubUpdatesItsOperandAndTheFlags : Prop :=
  ∀ (s : State) (dst : RM32) (imm : Byte), s.memory.wf = true → Rm32InMemory s dst →
    ∃ t, exec (.subRm32Imm8 dst imm) s = .next t ∧ Rm32Becomes dst (rm32Value s dst - imm.signExtend 32) s t ∧
      FlagsOfSub (rm32Value s dst) (imm.signExtend 32) s t ∧ SameOutside s t ∧
      t.eip = s.eip + BitVec.ofNat 32 (1 + dst.mlen + 1)

/-- The three compares complete (the r/m32 form when its operand lies within memory) and write the flags of the subtraction and
nothing else (R152 to R154, R150; CMP AL,imm8 zero-extends by the spec's decision D10, log 20; the Sign flag D7, log 18). -/
def Obligations.CompareWritesOnlyTheFlags : Prop :=
  ∀ (s : State) (r : Reg) (o : RM32) (imm8 : Byte) (imm32 : Word) (i : Instr) (a b : Word) (len : Nat),
    Rm32InMemory s o →
    (i, a, b, len) ∈ [(Instr.cmpR32Rm32 r o, s.reg r, rm32Value s o, 1 + o.mlen),
      (Instr.cmpAlImm8 imm8, (s.reg8 .al).zeroExtend 32, imm8.zeroExtend 32, 2),
      (Instr.cmpEaxImm32 imm32, s.reg .eax, imm32, 5)] →
    ∃ t, exec i s = .next t ∧ FlagsOfSub a b s t ∧ SameRegsBut [] s t ∧ SameMemory s t ∧ SameOutside s t ∧
      t.eip = s.eip + BitVec.ofNat 32 len

/-- INC r32 adds 1 modulo 2^32 to its register and changes no flag (R155; modulo: the spec's decision D6, log 22). -/
def Obligations.IncRegisterAddsOneWithoutFlags : Prop :=
  ∀ (s : State) (r : Reg), ∃ t, exec (.incR32 r) s = .next t ∧ t.reg r = s.reg r + 1#32 ∧ SameRegsBut [r] s t ∧
    SameMemory s t ∧ SameFlags s t ∧ SameOutside s t ∧ t.eip = s.eip + 1#32

/-! ## Data movement (42_data_movement.md) -/

/-- MOV r/m32,r32 and MOV r/m32,imm32 (whatever the ignored `reg` field; the spec's decision D18, log 24) complete when their
operand lies within memory and store the value there (R171, R176). -/
def Obligations.MovStoresAWord : Prop :=
  ∀ (s : State) (dst : RM32) (src : Reg) (ext : BitVec 3) (imm : Word) (i : Instr) (v : Word) (len : Nat),
    s.memory.wf = true → Rm32InMemory s dst →
    (i, v, len) ∈ [(Instr.movRm32R32 dst src, s.reg src, 1 + dst.mlen),
      (Instr.movRm32Imm32 ext dst imm, imm, 1 + dst.mlen + 4)] →
    ∃ t, exec i s = .next t ∧ Rm32Becomes dst v s t ∧ SameFlags s t ∧ SameOutside s t ∧
      t.eip = s.eip + BitVec.ofNat 32 len

/-- MOV r/m8,r8 completes when its operand lies within memory and stores one byte (R170; the spec's decision D8, log 29). -/
def Obligations.MovStoresAByte : Prop :=
  ∀ (s : State) (dst : RM8) (src : Reg8), s.memory.wf = true → Rm8InMemory s dst →
    ∃ t, exec (.movRm8R8 dst src) s = .next t ∧ Rm8Becomes dst (s.reg8 src) s t ∧ SameFlags s t ∧ SameOutside s t ∧
      t.eip = s.eip + BitVec.ofNat 32 (1 + dst.mlen)

/-- MOV r32,r/m32 (when its operand lies within memory) and MOV r32,imm32 load their register and change nothing else (R173,
R175). -/
def Obligations.MovLoadsARegister : Prop :=
  ∀ (s : State) (dst : Reg) (src : RM32) (imm : Word) (i : Instr) (v : Word) (len : Nat), Rm32InMemory s src →
    (i, v, len) ∈ [(Instr.movR32Rm32 dst src, rm32Value s src, 1 + src.mlen), (Instr.movR32Imm32 dst imm, imm, 5)] →
    ∃ t, exec i s = .next t ∧ t.reg dst = v ∧ SameRegsBut [dst] s t ∧ SameMemory s t ∧ SameFlags s t ∧ SameOutside s t ∧
      t.eip = s.eip + BitVec.ofNat 32 len

/-- MOV r8,r/m8 (when its operand lies within memory) and MOV r8,imm8 load their alias, keep the other 24 bits of its parent and
change nothing else (R172, R174). -/
def Obligations.MovLoadsAnAlias : Prop :=
  ∀ (s : State) (dst : Reg8) (src : RM8) (imm : Byte) (i : Instr) (v : Byte) (len : Nat), Rm8InMemory s src →
    (i, v, len) ∈ [(Instr.movR8Rm8 dst src, rm8Value s src, 1 + src.mlen), (Instr.movR8Imm8 dst imm, imm, 2)] →
    ∃ t, exec i s = .next t ∧ Reg8Becomes dst v s t ∧ SameMemory s t ∧ SameFlags s t ∧ SameOutside s t ∧
      t.eip = s.eip + BitVec.ofNat 32 len

/-! ## The stack (43_stack.md) -/

/-- The three pushes complete when the four bytes below ESP lie within memory: the value of before the push is stored there and ESP
is decremented by 4 (R190, R192, R193; the definition of push and PUSH ESP are the spec's decisions D11, D12, log 15, log 16). -/
def Obligations.PushStoresTheValueBelowEsp : Prop :=
  ∀ (s : State) (r : Reg) (imm8 : Byte) (imm32 : Word) (i : Instr) (v : Word) (len : Nat),
    s.memory.wf = true → (s.reg .esp - 4#32).toNat + 4 ≤ s.memory.size →
    (i, v, len) ∈ [(Instr.pushR32 r, s.reg r, 1), (Instr.pushImm32 imm32, imm32, 5),
      (Instr.pushImm8 imm8, imm8.signExtend 32, 2)] →
    ∃ t, exec i s = .next t ∧ WordStored (s.reg .esp - 4#32).toNat v s t ∧ t.reg .esp = s.reg .esp - 4#32 ∧
      SameRegsBut [.esp] s t ∧ SameFlags s t ∧ SameOutside s t ∧ t.eip = s.eip + BitVec.ofNat 32 len

/-- POP r32 completes when the four bytes at ESP lie within memory: the register holds them, and ESP is incremented by 4 unless it
is the register (R191; the spec's decisions D11, D12, log 15, log 16). -/
def Obligations.PopLoadsTheWordAtEsp : Prop :=
  ∀ (s : State) (r : Reg), (s.reg .esp).toNat + 4 ≤ s.memory.size →
    ∃ t, exec (.popR32 r) s = .next t ∧ t.reg r = s.memory.word (s.reg .esp).toNat ∧
      (r ≠ .esp → t.reg .esp = s.reg .esp + 4#32) ∧ SameRegsBut [r, .esp] s t ∧ SameMemory s t ∧ SameFlags s t ∧
      SameOutside s t ∧ t.eip = s.eip + 1#32

/-- LEAVE completes when the four bytes at EBP lie within memory: EBP holds them and ESP is the old EBP plus 4 (R194; the pop is the
spec's decision D11, log 15). -/
def Obligations.LeaveRestoresTheFrame : Prop :=
  ∀ s : State, (s.reg .ebp).toNat + 4 ≤ s.memory.size →
    ∃ t, exec .leave s = .next t ∧ t.reg .ebp = s.memory.word (s.reg .ebp).toNat ∧ t.reg .esp = s.reg .ebp + 4#32 ∧
      SameRegsBut [.ebp, .esp] s t ∧ SameMemory s t ∧ SameFlags s t ∧ SameOutside s t ∧ t.eip = s.eip + 1#32

/-- The round-trip law: after a push that did not halt, a POP into another register than ESP gives the pushed value and the ESP of
before the pair (R195 (a); push and pop are the spec's decision D11, log 15). -/
def Obligations.PushThenPopGivesTheValueBack : Prop :=
  ∀ (s : State) (v : Word) (r : Reg), s.memory.wf = true → (s.reg .esp - 4#32).toNat + 4 ≤ s.memory.size → r ≠ .esp →
    ∃ t u, exec (.pushImm32 v) s = .next t ∧ exec (.popR32 r) t = .next u ∧ u.reg r = v ∧ u.reg .esp = s.reg .esp ∧
      SameRegsBut [r] s u ∧ SameFlags s u ∧ SameOutside s u

/-! ## Control transfer (44_control_flow.md) -/

/-- The ten conditional jumps complete in every state: they go to the next instruction plus the signed displacement when their
condition holds, else to the next instruction, and change nothing but EIP (R210 to R220; JL and JLE: the spec's decision D21, log
21; the base of the displacement D25, log 27). -/
def Obligations.ConditionalJumpsFollowTheirCondition : Prop :=
  ∀ (s : State) (rel : Byte) (i : Instr) (c : Prop), (i, c) ∈ jumpConditions rel s →
    ∃ t, exec i s = .next t ∧ (c → t.eip = s.eip + 2#32 + rel.signExtend 32) ∧ (¬ c → t.eip = s.eip + 2#32) ∧
      SameRegsBut [] s t ∧ SameMemory s t ∧ SameFlags s t ∧ SameOutside s t

/-- After CMP r32,r/m32 the complemented Sign flag makes JL and JLE jump exactly when the first operand is at least the second as
signed numbers, JS exactly when the difference's top bit is 0; JC and JZ test unsigned below and equality (R160; the Sign flag is
the spec's decision D7, log 18, JL and JLE D21, log 21). -/
def Obligations.JumpsAfterACompare : Prop :=
  ∀ (s t : State) (r : Reg) (o : RM32) (rel : Byte), Rm32InMemory s o → exec (.cmpR32Rm32 r o) s = .next t →
    ∀ (i : Instr) (c : Prop),
      (i, c) ∈ [(Instr.jl rel, (rm32Value s o).toInt ≤ (s.reg r).toInt), (Instr.jle rel, (rm32Value s o).toInt ≤ (s.reg r).toInt),
        (Instr.js rel, (s.reg r - rm32Value s o).msb = false), (Instr.jns rel, (s.reg r - rm32Value s o).msb = true),
        (Instr.jc rel, (s.reg r).toNat < (rm32Value s o).toNat), (Instr.jz rel, s.reg r = rm32Value s o)] →
      ∃ u, exec i t = .next u ∧ (c → u.eip = t.eip + 2#32 + rel.signExtend 32) ∧ (¬ c → u.eip = t.eip + 2#32)

/-- JMP rel32 and JMP rel8 complete in every state: EIP is the next instruction plus the signed displacement, and nothing else
changes (R221, R222; the base of the displacement is the spec's decision D25, log 27). -/
def Obligations.JumpsGoToTheirTarget : Prop :=
  ∀ (s : State) (rel32 : Word) (rel8 : Byte) (i : Instr) (target : Word),
    (i, target) ∈ [(Instr.jmpRel32 rel32, s.eip + 5#32 + rel32), (Instr.jmpRel8 rel8, s.eip + 2#32 + rel8.signExtend 32)] →
    ∃ t, exec i s = .next t ∧ t.eip = target ∧ SameRegsBut [] s t ∧ SameMemory s t ∧ SameFlags s t ∧ SameOutside s t

/-- CALL rel32 completes when the four bytes below ESP lie within memory: the address of the next instruction is pushed and EIP is
that address plus the displacement (R223; the push is the spec's decision D11, log 15, the base D25, log 27). -/
def Obligations.CallPushesTheReturnAddress : Prop :=
  ∀ (s : State) (rel : Word), s.memory.wf = true → (s.reg .esp - 4#32).toNat + 4 ≤ s.memory.size →
    ∃ t, exec (.callRel32 rel) s = .next t ∧ WordStored (s.reg .esp - 4#32).toNat (s.eip + 5#32) s t ∧
      t.reg .esp = s.reg .esp - 4#32 ∧ SameRegsBut [.esp] s t ∧ SameFlags s t ∧ SameOutside s t ∧
      t.eip = s.eip + 5#32 + rel

/-- RET completes when the four bytes at ESP lie within memory: EIP is the word there and ESP is incremented by 4 (R224; the pop is
the spec's decision D11, log 15). -/
def Obligations.RetGoesToTheWordAtEsp : Prop :=
  ∀ s : State, (s.reg .esp).toNat + 4 ≤ s.memory.size →
    ∃ t, exec .ret s = .next t ∧ t.eip = s.memory.word (s.reg .esp).toNat ∧ t.reg .esp = s.reg .esp + 4#32 ∧
      SameRegsBut [.esp] s t ∧ SameMemory s t ∧ SameFlags s t ∧ SameOutside s t

/-- A RET straight after a CALL comes back to the instruction after the CALL, with ESP and every other register as before it (R223,
R224; D11, log 15). -/
def Obligations.RetUndoesACall : Prop :=
  ∀ (s : State) (rel : Word), s.memory.wf = true → (s.reg .esp - 4#32).toNat + 4 ≤ s.memory.size →
    ∃ t u, exec (.callRel32 rel) s = .next t ∧ exec .ret t = .next u ∧ u.eip = s.eip + 5#32 ∧ SameRegsBut [] s u ∧
      SameFlags s u ∧ SameOutside s u

/-! ## Software interrupt and port I/O (45_io_interrupt.md) -/

/-- INT imm8 completes in every state, for every vector: it emits one event and passes to the next instruction, with no register,
flag or byte changed and nothing pushed (R240, R241, R246; the spec's decisions D19, D31, log 25). -/
def Obligations.IntEmitsOneEventAndFallsThrough : Prop :=
  ∀ (s : State) (vector : Byte), ∃ (t : State) (e : Event), exec (.int vector) s = .next t ∧
    t = { s with eip := s.eip + 2#32, events := s.events ++ [e] } ∧
    (vector = 0x10#8 → s.reg8 .ah = 0x0E#8 → e = .teletype (s.reg8 .al) ((s.reg8 .bl).extractLsb' 0 4)) ∧
    (vector = 0x10#8 → s.reg8 .ah ≠ 0x0E#8 → e = .reportUnknownVideoFunction (s.reg8 .ah)) ∧
    (vector ≠ 0x10#8 → e = .reportUnknownInterrupt vector)

/-- IN AL,DX from port 0x03F8 completes whenever the input source answers: one line is consumed, AL holds its first character, the
other bits of EAX are kept (R242, R244, D20). For an empty line, a character above 255 and a line nothing determines AL holds the
next free value, whatever that is (N15, log 8, log 9, log 32). -/
def Obligations.InReadsTheNextLineIntoAl : Prop :=
  ∀ (s : State) (v : Byte) (rest : List (List Nat)) (n : Nat), s.port = 0x03F8#16 →
    ((∃ c cs, s.input.lines = (c :: cs) :: rest ∧ c < 256 ∧ v = BitVec.ofNat 8 c ∧ n = s.freeIndex) ∨
     (∃ c cs, s.input.lines = (c :: cs) :: rest ∧ 256 ≤ c ∧ v = Config.freeByte s.freeIndex ∧ n = s.freeIndex + 1) ∨
     (s.input.lines = [] :: rest ∧ v = Config.freeByte s.freeIndex ∧ n = s.freeIndex + 1) ∨
     (s.input.lines = [] ∧ rest = [] ∧ s.input.after ≠ .silent ∧ v = Config.freeByte s.freeIndex ∧ n = s.freeIndex + 1)) →
    ∃ t, exec .inAlDx s = .next t ∧ Reg8Becomes .al v s t ∧ t.input = { s.input with lines := rest } ∧ t.freeIndex = n ∧
      t.eip = s.eip + 1#32 ∧ SameMemory s t ∧ SameFlags s t ∧ t.runState = s.runState ∧ t.quiet = s.quiet ∧
      t.events = s.events

/-- IN from any other port halts with UnknownPortRead and consumes no input (R242); from port 0x03F8 with a source that never answers
it is stuck (R244, R274, log 10). -/
def Obligations.InStopsOnUnknownPortAndSilence : Prop :=
  ∀ s : State,
    (s.port ≠ 0x03F8#16 → exec .inAlDx s = .next { s with runState := .halted (.unknownPortRead s.port) }) ∧
    (s.port = 0x03F8#16 → s.input.lines = [] → s.input.after = .silent → exec .inAlDx s = .fault .inputNeverAnswers)

/-- OUT DX,AL completes in every state: port 0x03F8 gets AL as one character, any other port nothing, and only EIP changes besides
(R243, R245; the 16-bit port number is the spec's decision D26, log 26). -/
def Obligations.OutSendsAlToTheSerialPort : Prop :=
  ∀ s : State, ∃ t, exec .outDxAl s = .next t ∧
    t = { s with
      eip := s.eip + 1#32
      events := if (s.reg .edx).toNat % 2 ^ 16 = 0x3F8 then s.events ++ [.serialOut (s.reg8 .al)] else s.events }

/-! ## Data accesses beyond memory (20_memory.md R56) -/

/-- An instruction whose memory operand does not lie within memory halts with OutOfBounds and the operand's address, and changes
nothing else (R56, R151 to R158, R170 to R176; the spec's decisions D13, D17, log 11, log 23). -/
def Obligations.OperandBeyondMemoryHalts : Prop :=
  ∀ (s : State) (m : MemForm) (r : Reg) (r8 : Reg8) (ext : BitVec 3) (imm8 : Byte) (imm32 : Word) (i : Instr),
    (s.memory.size < (effAddr s m).toNat + 4 →
      i ∈ [Instr.addRm32R32 (.mem m) r, .cmpR32Rm32 r (.mem m), .addRm32Imm8 (.mem m) imm8, .subRm32Imm8 (.mem m) imm8,
        .incRm32 (.mem m), .movRm32R32 (.mem m) r, .movR32Rm32 r (.mem m), .movRm32Imm32 ext (.mem m) imm32] →
      exec i s = .next { s with runState := .halted (.outOfBounds (effAddr s m).toNat) }) ∧
    (s.memory.size < (effAddr s m).toNat + 1 → i ∈ [Instr.movRm8R8 (.mem m) r8, .movR8Rm8 r8 (.mem m)] →
      exec i s = .next { s with runState := .halted (.outOfBounds (effAddr s m).toNat) })

/-- A stack access that does not lie within memory halts with OutOfBounds and its address, and changes nothing else, ESP included
(R56, R66, R130, R190 to R194, R223, R224; the spec's decisions D11, D13, D17, log 11, log 15, log 23). -/
def Obligations.StackBeyondMemoryHalts : Prop :=
  ∀ (s : State) (r : Reg) (imm8 : Byte) (imm32 rel : Word) (i : Instr),
    (s.memory.size < (s.reg .esp - 4#32).toNat + 4 →
      i ∈ [Instr.pushR32 r, .pushImm32 imm32, .pushImm8 imm8, .callRel32 rel] →
      exec i s = .next { s with runState := .halted (.outOfBounds (s.reg .esp - 4#32).toNat) }) ∧
    (s.memory.size < (s.reg .esp).toNat + 4 → i ∈ [Instr.popR32 r, .ret] →
      exec i s = .next { s with runState := .halted (.outOfBounds (s.reg .esp).toNat) }) ∧
    (s.memory.size < (s.reg .ebp).toNat + 4 → i = .leave →
      exec i s = .next { s with runState := .halted (.outOfBounds (s.reg .ebp).toNat) })
end

