-- ==== Sys2Proof/Laws/State.lean ====
section
/-! SUPPORT. One lemma per field of State and per update, so that no later proof unfolds a record update. -/

namespace Sys2Proof.Machine

/-! ## setReg -/

@[simp] theorem State.setReg_regs (s : State) (r : Reg) (v : Word) : (s.setReg r v).regs = s.regs.set r v := rfl
@[simp] theorem State.setReg_eip (s : State) (r : Reg) (v : Word) : (s.setReg r v).eip = s.eip := rfl
@[simp] theorem State.setReg_eflags (s : State) (r : Reg) (v : Word) : (s.setReg r v).eflags = s.eflags := rfl
@[simp] theorem State.setReg_memory (s : State) (r : Reg) (v : Word) : (s.setReg r v).memory = s.memory := rfl
@[simp] theorem State.setReg_runState (s : State) (r : Reg) (v : Word) : (s.setReg r v).runState = s.runState := rfl
@[simp] theorem State.setReg_quiet (s : State) (r : Reg) (v : Word) : (s.setReg r v).quiet = s.quiet := rfl
@[simp] theorem State.setReg_input (s : State) (r : Reg) (v : Word) : (s.setReg r v).input = s.input := rfl
@[simp] theorem State.setReg_freeIndex (s : State) (r : Reg) (v : Word) : (s.setReg r v).freeIndex = s.freeIndex := rfl
@[simp] theorem State.setReg_events (s : State) (r : Reg) (v : Word) : (s.setReg r v).events = s.events := rfl

/-! ## setMemory -/

@[simp] theorem State.setMemory_regs (s : State) (m : Memory) : (s.setMemory m).regs = s.regs := rfl
@[simp] theorem State.setMemory_eip (s : State) (m : Memory) : (s.setMemory m).eip = s.eip := rfl
@[simp] theorem State.setMemory_eflags (s : State) (m : Memory) : (s.setMemory m).eflags = s.eflags := rfl
@[simp] theorem State.setMemory_memory (s : State) (m : Memory) : (s.setMemory m).memory = m := rfl
@[simp] theorem State.setMemory_runState (s : State) (m : Memory) : (s.setMemory m).runState = s.runState := rfl
@[simp] theorem State.setMemory_quiet (s : State) (m : Memory) : (s.setMemory m).quiet = s.quiet := rfl
@[simp] theorem State.setMemory_input (s : State) (m : Memory) : (s.setMemory m).input = s.input := rfl
@[simp] theorem State.setMemory_freeIndex (s : State) (m : Memory) : (s.setMemory m).freeIndex = s.freeIndex := rfl
@[simp] theorem State.setMemory_events (s : State) (m : Memory) : (s.setMemory m).events = s.events := rfl

/-! ## setEip -/

@[simp] theorem State.setEip_regs (s : State) (v : Word) : (s.setEip v).regs = s.regs := rfl
@[simp] theorem State.setEip_eip (s : State) (v : Word) : (s.setEip v).eip = v := rfl
@[simp] theorem State.setEip_eflags (s : State) (v : Word) : (s.setEip v).eflags = s.eflags := rfl
@[simp] theorem State.setEip_memory (s : State) (v : Word) : (s.setEip v).memory = s.memory := rfl
@[simp] theorem State.setEip_runState (s : State) (v : Word) : (s.setEip v).runState = s.runState := rfl
@[simp] theorem State.setEip_quiet (s : State) (v : Word) : (s.setEip v).quiet = s.quiet := rfl
@[simp] theorem State.setEip_input (s : State) (v : Word) : (s.setEip v).input = s.input := rfl
@[simp] theorem State.setEip_freeIndex (s : State) (v : Word) : (s.setEip v).freeIndex = s.freeIndex := rfl
@[simp] theorem State.setEip_events (s : State) (v : Word) : (s.setEip v).events = s.events := rfl

/-! ## advance -/

@[simp] theorem State.advance_regs (s : State) (n : Nat) : (s.advance n).regs = s.regs := rfl
@[simp] theorem State.advance_eip (s : State) (n : Nat) : (s.advance n).eip = s.nextEip n := rfl
@[simp] theorem State.advance_eflags (s : State) (n : Nat) : (s.advance n).eflags = s.eflags := rfl
@[simp] theorem State.advance_memory (s : State) (n : Nat) : (s.advance n).memory = s.memory := rfl
@[simp] theorem State.advance_runState (s : State) (n : Nat) : (s.advance n).runState = s.runState := rfl
@[simp] theorem State.advance_quiet (s : State) (n : Nat) : (s.advance n).quiet = s.quiet := rfl
@[simp] theorem State.advance_input (s : State) (n : Nat) : (s.advance n).input = s.input := rfl
@[simp] theorem State.advance_freeIndex (s : State) (n : Nat) : (s.advance n).freeIndex = s.freeIndex := rfl
@[simp] theorem State.advance_events (s : State) (n : Nat) : (s.advance n).events = s.events := rfl

/-! ## jumpRel -/

@[simp] theorem State.jumpRel_regs (s : State) (n : Nat) (v : Word) : (s.jumpRel n v).regs = s.regs := rfl
@[simp] theorem State.jumpRel_eip (s : State) (n : Nat) (v : Word) : (s.jumpRel n v).eip = s.nextEip n + v := rfl
@[simp] theorem State.jumpRel_eflags (s : State) (n : Nat) (v : Word) : (s.jumpRel n v).eflags = s.eflags := rfl
@[simp] theorem State.jumpRel_memory (s : State) (n : Nat) (v : Word) : (s.jumpRel n v).memory = s.memory := rfl
@[simp] theorem State.jumpRel_runState (s : State) (n : Nat) (v : Word) : (s.jumpRel n v).runState = s.runState := rfl
@[simp] theorem State.jumpRel_quiet (s : State) (n : Nat) (v : Word) : (s.jumpRel n v).quiet = s.quiet := rfl
@[simp] theorem State.jumpRel_input (s : State) (n : Nat) (v : Word) : (s.jumpRel n v).input = s.input := rfl
@[simp] theorem State.jumpRel_freeIndex (s : State) (n : Nat) (v : Word) : (s.jumpRel n v).freeIndex = s.freeIndex := rfl
@[simp] theorem State.jumpRel_events (s : State) (n : Nat) (v : Word) : (s.jumpRel n v).events = s.events := rfl

/-! ## halt -/

@[simp] theorem State.halt_regs (s : State) (h : HaltReason) : (s.halt h).regs = s.regs := rfl
@[simp] theorem State.halt_eip (s : State) (h : HaltReason) : (s.halt h).eip = s.eip := rfl
@[simp] theorem State.halt_eflags (s : State) (h : HaltReason) : (s.halt h).eflags = s.eflags := rfl
@[simp] theorem State.halt_memory (s : State) (h : HaltReason) : (s.halt h).memory = s.memory := rfl
@[simp] theorem State.halt_runState (s : State) (h : HaltReason) : (s.halt h).runState = .halted h := rfl
@[simp] theorem State.halt_quiet (s : State) (h : HaltReason) : (s.halt h).quiet = s.quiet := rfl
@[simp] theorem State.halt_input (s : State) (h : HaltReason) : (s.halt h).input = s.input := rfl
@[simp] theorem State.halt_freeIndex (s : State) (h : HaltReason) : (s.halt h).freeIndex = s.freeIndex := rfl
@[simp] theorem State.halt_events (s : State) (h : HaltReason) : (s.halt h).events = s.events := rfl

/-! ## emit -/

@[simp] theorem State.emit_regs (s : State) (e : Event) : (s.emit e).regs = s.regs := rfl
@[simp] theorem State.emit_eip (s : State) (e : Event) : (s.emit e).eip = s.eip := rfl
@[simp] theorem State.emit_eflags (s : State) (e : Event) : (s.emit e).eflags = s.eflags := rfl
@[simp] theorem State.emit_memory (s : State) (e : Event) : (s.emit e).memory = s.memory := rfl
@[simp] theorem State.emit_runState (s : State) (e : Event) : (s.emit e).runState = s.runState := rfl
@[simp] theorem State.emit_quiet (s : State) (e : Event) : (s.emit e).quiet = s.quiet := rfl
@[simp] theorem State.emit_input (s : State) (e : Event) : (s.emit e).input = s.input := rfl
@[simp] theorem State.emit_freeIndex (s : State) (e : Event) : (s.emit e).freeIndex = s.freeIndex := rfl
@[simp] theorem State.emit_events (s : State) (e : Event) : (s.emit e).events = s.events ++ [e] := rfl

/-! ## setEflags -/

@[simp] theorem State.setEflags_regs (s : State) (w : BitVec 16) : (s.setEflags w).regs = s.regs := rfl
@[simp] theorem State.setEflags_eip (s : State) (w : BitVec 16) : (s.setEflags w).eip = s.eip := rfl
@[simp] theorem State.setEflags_eflags (s : State) (w : BitVec 16) : (s.setEflags w).eflags = w := rfl
@[simp] theorem State.setEflags_memory (s : State) (w : BitVec 16) : (s.setEflags w).memory = s.memory := rfl
@[simp] theorem State.setEflags_runState (s : State) (w : BitVec 16) : (s.setEflags w).runState = s.runState := rfl
@[simp] theorem State.setEflags_quiet (s : State) (w : BitVec 16) : (s.setEflags w).quiet = s.quiet := rfl
@[simp] theorem State.setEflags_input (s : State) (w : BitVec 16) : (s.setEflags w).input = s.input := rfl
@[simp] theorem State.setEflags_freeIndex (s : State) (w : BitVec 16) : (s.setEflags w).freeIndex = s.freeIndex := rfl
@[simp] theorem State.setEflags_events (s : State) (w : BitVec 16) : (s.setEflags w).events = s.events := rfl

/-! ## setLines -/

@[simp] theorem State.setLines_regs (s : State) (l : List (List Nat)) : (s.setLines l).regs = s.regs := rfl
@[simp] theorem State.setLines_eip (s : State) (l : List (List Nat)) : (s.setLines l).eip = s.eip := rfl
@[simp] theorem State.setLines_eflags (s : State) (l : List (List Nat)) : (s.setLines l).eflags = s.eflags := rfl
@[simp] theorem State.setLines_memory (s : State) (l : List (List Nat)) : (s.setLines l).memory = s.memory := rfl
@[simp] theorem State.setLines_runState (s : State) (l : List (List Nat)) : (s.setLines l).runState = s.runState := rfl
@[simp] theorem State.setLines_quiet (s : State) (l : List (List Nat)) : (s.setLines l).quiet = s.quiet := rfl
@[simp] theorem State.setLines_input (s : State) (l : List (List Nat)) : (s.setLines l).input = { s.input with lines := l } := rfl
@[simp] theorem State.setLines_freeIndex (s : State) (l : List (List Nat)) : (s.setLines l).freeIndex = s.freeIndex := rfl
@[simp] theorem State.setLines_events (s : State) (l : List (List Nat)) : (s.setLines l).events = s.events := rfl

/-! ## drawByte -/

@[simp] theorem State.drawByte_regs (s : State) : s.drawByte.2.regs = s.regs := rfl
@[simp] theorem State.drawByte_eip (s : State) : s.drawByte.2.eip = s.eip := rfl
@[simp] theorem State.drawByte_eflags (s : State) : s.drawByte.2.eflags = s.eflags := rfl
@[simp] theorem State.drawByte_memory (s : State) : s.drawByte.2.memory = s.memory := rfl
@[simp] theorem State.drawByte_runState (s : State) : s.drawByte.2.runState = s.runState := rfl
@[simp] theorem State.drawByte_quiet (s : State) : s.drawByte.2.quiet = s.quiet := rfl
@[simp] theorem State.drawByte_input (s : State) : s.drawByte.2.input = s.input := rfl
@[simp] theorem State.drawByte_freeIndex (s : State) : s.drawByte.2.freeIndex = s.freeIndex + 1 := rfl
@[simp] theorem State.drawByte_events (s : State) : s.drawByte.2.events = s.events := rfl
@[simp] theorem State.drawByte_fst (s : State) : s.drawByte.1 = Config.freeByte s.freeIndex := rfl

/-! ## updateFlagsSub and setReg8 -/

@[simp] theorem updateFlagsSub_regs (s : State) (a b : Word) : (updateFlagsSub s a b).regs = s.regs := rfl
@[simp] theorem updateFlagsSub_eip (s : State) (a b : Word) : (updateFlagsSub s a b).eip = s.eip := rfl
@[simp] theorem updateFlagsSub_eflags (s : State) (a b : Word) : (updateFlagsSub s a b).eflags = flagsAfterSub s.eflags a b (sub64 a b) := rfl
@[simp] theorem updateFlagsSub_memory (s : State) (a b : Word) : (updateFlagsSub s a b).memory = s.memory := rfl
@[simp] theorem updateFlagsSub_runState (s : State) (a b : Word) : (updateFlagsSub s a b).runState = s.runState := rfl
@[simp] theorem updateFlagsSub_quiet (s : State) (a b : Word) : (updateFlagsSub s a b).quiet = s.quiet := rfl
@[simp] theorem updateFlagsSub_input (s : State) (a b : Word) : (updateFlagsSub s a b).input = s.input := rfl
@[simp] theorem updateFlagsSub_freeIndex (s : State) (a b : Word) : (updateFlagsSub s a b).freeIndex = s.freeIndex := rfl
@[simp] theorem updateFlagsSub_events (s : State) (a b : Word) : (updateFlagsSub s a b).events = s.events := rfl
@[simp] theorem State.setReg8_eip (s : State) (r : Reg8) (v : Byte) : (s.setReg8 r v).eip = s.eip := rfl
@[simp] theorem State.setReg8_eflags (s : State) (r : Reg8) (v : Byte) : (s.setReg8 r v).eflags = s.eflags := rfl
@[simp] theorem State.setReg8_memory (s : State) (r : Reg8) (v : Byte) : (s.setReg8 r v).memory = s.memory := rfl
@[simp] theorem State.setReg8_runState (s : State) (r : Reg8) (v : Byte) : (s.setReg8 r v).runState = s.runState := rfl
@[simp] theorem State.setReg8_quiet (s : State) (r : Reg8) (v : Byte) : (s.setReg8 r v).quiet = s.quiet := rfl
@[simp] theorem State.setReg8_input (s : State) (r : Reg8) (v : Byte) : (s.setReg8 r v).input = s.input := rfl
@[simp] theorem State.setReg8_freeIndex (s : State) (r : Reg8) (v : Byte) : (s.setReg8 r v).freeIndex = s.freeIndex := rfl
@[simp] theorem State.setReg8_events (s : State) (r : Reg8) (v : Byte) : (s.setReg8 r v).events = s.events := rfl

/-! ## The register file -/

@[simp] theorem Regs.get_set (g : Regs) (r q : Reg) (v : Word) :
    (g.set r v).get q = if q = r then v else g.get q := by
  cases r <;> cases q <;> rfl

@[simp] theorem State.reg_setReg (s : State) (r q : Reg) (v : Word) :
    (s.setReg r v).reg q = if q = r then v else s.reg q := Regs.get_set s.regs r q v

/-- Two states with the same register record hold the same registers. -/
theorem State.reg_congr {s t : State} (h : t.regs = s.regs) (r : Reg) : t.reg r = s.reg r := by
  simp only [State.reg, h]

theorem Regs.ext_get {g h : Regs} (e : ∀ r, g.get r = h.get r) : g = h := by
  cases g; cases h
  have h0 := e .eax; have h1 := e .ecx; have h2 := e .edx; have h3 := e .ebx
  have h4 := e .esp; have h5 := e .ebp; have h6 := e .esi; have h7 := e .edi
  simp only [Regs.get] at h0 h1 h2 h3 h4 h5 h6 h7
  subst h0 h1 h2 h3 h4 h5 h6 h7
  rfl

@[simp] theorem State.reg_setMemory (s : State) (m : Memory) (r : Reg) : (s.setMemory m).reg r = s.reg r := rfl
@[simp] theorem State.reg_setEip (s : State) (v : Word) (r : Reg) : (s.setEip v).reg r = s.reg r := rfl
@[simp] theorem State.reg_advance (s : State) (n : Nat) (r : Reg) : (s.advance n).reg r = s.reg r := rfl
@[simp] theorem State.reg_jumpRel (s : State) (n : Nat) (v : Word) (r : Reg) : (s.jumpRel n v).reg r = s.reg r := rfl
@[simp] theorem State.reg_halt (s : State) (h : HaltReason) (r : Reg) : (s.halt h).reg r = s.reg r := rfl
@[simp] theorem State.reg_emit (s : State) (e : Event) (r : Reg) : (s.emit e).reg r = s.reg r := rfl
@[simp] theorem State.reg_setEflags (s : State) (w : BitVec 16) (r : Reg) : (s.setEflags w).reg r = s.reg r := rfl
@[simp] theorem State.reg_setLines (s : State) (l : List (List Nat)) (r : Reg) : (s.setLines l).reg r = s.reg r := rfl
@[simp] theorem State.reg_drawByte (s : State) (r : Reg) : s.drawByte.2.reg r = s.reg r := rfl
@[simp] theorem reg_updateFlagsSub (s : State) (a b : Word) (r : Reg) : (updateFlagsSub s a b).reg r = s.reg r := rfl
@[simp] theorem State.reg8_setMemory (s : State) (m : Memory) (r : Reg8) : (s.setMemory m).reg8 r = s.reg8 r := rfl
@[simp] theorem State.reg8_setEip (s : State) (v : Word) (r : Reg8) : (s.setEip v).reg8 r = s.reg8 r := rfl
@[simp] theorem State.reg8_advance (s : State) (n : Nat) (r : Reg8) : (s.advance n).reg8 r = s.reg8 r := rfl
@[simp] theorem State.reg8_jumpRel (s : State) (n : Nat) (v : Word) (r : Reg8) : (s.jumpRel n v).reg8 r = s.reg8 r := rfl
@[simp] theorem State.reg8_halt (s : State) (h : HaltReason) (r : Reg8) : (s.halt h).reg8 r = s.reg8 r := rfl
@[simp] theorem State.reg8_emit (s : State) (e : Event) (r : Reg8) : (s.emit e).reg8 r = s.reg8 r := rfl
@[simp] theorem State.reg8_setEflags (s : State) (w : BitVec 16) (r : Reg8) : (s.setEflags w).reg8 r = s.reg8 r := rfl
@[simp] theorem State.reg8_setLines (s : State) (l : List (List Nat)) (r : Reg8) : (s.setLines l).reg8 r = s.reg8 r := rfl

@[simp] theorem State.reg_setReg8 (s : State) (r : Reg8) (q : Reg) (v : Byte) :
    (s.setReg8 r v).reg q =
      if q = Reg8.parent r then aliasWrite (s.reg (Reg8.parent r)) (Reg8.isHigh r) v else s.reg q :=
  State.reg_setReg s _ q _

/-! ## The 8-bit aliases (R23, R24) -/

@[simp] theorem aliasRead_aliasWrite (w : Word) (high : Bool) (v : Byte) :
    aliasRead (aliasWrite w high v) high = v := by
  cases high <;> simp only [aliasRead, aliasWrite] <;> ext i hi <;>
    simp <;> grind

/-- The other half of the low 16 bits is another alias, which keeps its value (R24). -/
theorem aliasRead_aliasWrite_other (w : Word) (high : Bool) (v : Byte) :
    aliasRead (aliasWrite w high v) (!high) = aliasRead w (!high) := by
  cases high <;> simp only [aliasRead, aliasWrite] <;> ext i hi <;>
    simp <;> grind

/-- The bits of a parent register that an alias does not name keep their value (R24). -/
theorem aliasWrite_rest (w : Word) (high : Bool) (v : Byte) :
    aliasWrite w high v &&& ~~~(if high then 0x0000FF00#32 else 0x000000FF#32)
      = w &&& ~~~(if high then 0x0000FF00#32 else 0x000000FF#32) := by
  apply BitVec.eq_of_getLsbD_eq
  intro i hi
  cases high <;> simp only [aliasWrite, Bool.false_eq_true, if_true, if_false, BitVec.getLsbD_and,
    BitVec.getLsbD_append, BitVec.getLsbD_extractLsb'] <;> interval_cases i <;> simp

@[simp] theorem State.reg8_setReg8_same (s : State) (r : Reg8) (v : Byte) : (s.setReg8 r v).reg8 r = v := by
  simp [State.reg8]

end Sys2Proof.Machine
end

