-- ==== Sys2Proof/Laws/Memory.lean ====
section
/-! SUPPORT. What the memory operations do: read after write, the canonical form, bounds (20_memory.md R51 to R57). -/

namespace Sys2Proof.Machine

/-! ## One byte -/

/-- An address below every listed one reads as the unlisted byte. -/
theorem cellsGet_below (c : List Host.Cell) (lo size a : Nat) (h : cellsWf size lo c = true) (ha : a < lo) :
    cellsGet c a = unlistedByte := by
  induction c generalizing lo with
  | nil => rfl
  | cons x t ih =>
    obtain ⟨k, w⟩ := x
    simp only [cellsWf, Bool.and_eq_true, decide_eq_true_eq] at h
    simp only [cellsGet]
    rw [if_neg (by omega), ih (k + 1) h.2 (by omega)]

theorem cellsGet_cellsPut (c : List Host.Cell) (lo size a b : Nat) (v : Byte) (h : cellsWf size lo c = true) :
    cellsGet (cellsPut c a v) b = if b = a then v else cellsGet c b := by
  induction c generalizing lo with
  | nil => simp only [cellsPut]; split_ifs <;> (try simp only [cellsGet]) <;> (try split_ifs) <;>
    first | rfl | (symm; assumption) | omega
  | cons x t ih =>
    obtain ⟨k, w⟩ := x
    simp only [cellsWf, Bool.and_eq_true, decide_eq_true_eq] at h
    have ht := cellsGet_below t (k + 1) size b h.2
    have hi := ih (k + 1) h.2
    simp only [cellsPut]
    split_ifs with h1 h2 h3 h4 h5 <;> (try simp only [cellsGet, hi]) <;> (try split_ifs) <;>
      first
        | rfl
        | omega
        | (subst_vars; exact ht (by omega))

theorem cellsWf_cellsPut (c : List Host.Cell) (lo size a : Nat) (v : Byte) (h : cellsWf size lo c = true)
    (hlo : lo ≤ a) (ha : a < size) : cellsWf size lo (cellsPut c a v) = true := by
  induction c generalizing lo with
  | nil => simp only [cellsPut]; split <;> simp_all [cellsWf]
  | cons x t ih =>
    obtain ⟨k, w⟩ := x
    simp only [cellsWf, Bool.and_eq_true, decide_eq_true_eq] at h
    obtain ⟨⟨⟨h1, h2⟩, h3⟩, h4⟩ := h
    have weaken : ∀ (t : List Host.Cell) (lo lo' : Nat), cellsWf size lo' t = true → lo ≤ lo' → cellsWf size lo t = true := by
      intro t lo lo' hw hl
      cases t with
      | nil => rfl
      | cons y u => simp only [cellsWf, Bool.and_eq_true, decide_eq_true_eq] at hw ⊢; exact ⟨⟨⟨by omega, hw.1.1.2⟩, hw.1.2⟩, hw.2⟩
    simp only [cellsPut]
    split
    · split <;> simp only [cellsWf, Bool.and_eq_true, decide_eq_true_eq]
      · exact ⟨⟨⟨h1, h2⟩, h3⟩, h4⟩
      · exact ⟨⟨⟨hlo, ha⟩, by assumption⟩, ⟨⟨by omega, h2⟩, h3⟩, h4⟩
    · split
      · subst_vars
        split
        · exact weaken t _ _ h4 (by omega)
        · simp only [cellsWf, Bool.and_eq_true, decide_eq_true_eq]; exact ⟨⟨⟨h1, h2⟩, by assumption⟩, h4⟩
      · simp only [cellsWf, Bool.and_eq_true, decide_eq_true_eq]
        exact ⟨⟨⟨h1, h2⟩, h3⟩, ih (k + 1) h4 (by omega)⟩

/-- Reading a byte after writing one. -/
theorem Memory.byte_setByte (m : Memory) (a b : Nat) (v : Byte) (h : m.wf = true) :
    (m.setByte a v).byte b = if b = a then v else m.byte b :=
  cellsGet_cellsPut m.cells 0 m.size a b v h

@[simp] theorem Memory.size_setByte (m : Memory) (a : Nat) (v : Byte) : (m.setByte a v).size = m.size := rfl

/-- Writing a byte within memory keeps the canonical form. -/
theorem Memory.wf_setByte (m : Memory) (a : Nat) (v : Byte) (h : m.wf = true) (ha : a < m.size) :
    (m.setByte a v).wf = true :=
  cellsWf_cellsPut m.cells 0 m.size a v h (Nat.zero_le a) ha

/-! ## Four bytes -/

@[simp] theorem Memory.size_setWord (m : Memory) (a : Nat) (v : Word) : (m.setWord a v).size = m.size := rfl

theorem Memory.wf_setWord (m : Memory) (a : Nat) (v : Word) (h : m.wf = true) (ha : a + 4 ≤ m.size) :
    (m.setWord a v).wf = true := by
  unfold Memory.setWord
  iterate 4 apply Memory.wf_setByte
  · exact h
  all_goals (try simp only [Memory.size_setByte]); omega

/-- A byte after a word was written: one of the word's own, little-endian, or the old one. -/
theorem Memory.byte_setWord (m : Memory) (a b : Nat) (v : Word) (h : m.wf = true) (ha : a + 4 ≤ m.size) :
    (m.setWord a v).byte b = if a ≤ b ∧ b < a + 4 then byteOf v (b - a) else m.byte b := by
  have h0 := m.wf_setByte a (byteOf v 0) h (by omega)
  have h1 := Memory.wf_setByte _ (a + 1) (byteOf v 1) h0 (by simp only [Memory.size_setByte]; omega)
  have h2 := Memory.wf_setByte _ (a + 2) (byteOf v 2) h1 (by simp only [Memory.size_setByte]; omega)
  unfold Memory.setWord
  rw [Memory.byte_setByte _ _ _ _ h2, Memory.byte_setByte _ _ _ _ h1, Memory.byte_setByte _ _ _ _ h0,
    Memory.byte_setByte _ _ _ _ h]
  by_cases c : a ≤ b ∧ b < a + 4
  · have : b = a ∨ b = a + 1 ∨ b = a + 2 ∨ b = a + 3 := by omega
    rcases this with rfl | rfl | rfl | rfl <;> simp [c]
  · rw [if_neg c, if_neg (by omega), if_neg (by omega), if_neg (by omega), if_neg (by omega)]

/-- Assembling a word's own bytes gives the word (R52). -/
@[simp] theorem le32_byteOf (v : Word) : le32 (byteOf v 0) (byteOf v 1) (byteOf v 2) (byteOf v 3) = v := by
  apply BitVec.eq_of_getLsbD_eq
  intro i hi
  simp only [le32, byteOf, BitVec.getLsbD_append, BitVec.getLsbD_extractLsb']
  interval_cases i <;> simp

/-- A byte of an assembled word is the byte at that place (R52). -/
theorem byteOf_le32 (b0 b1 b2 b3 : Byte) :
    byteOf (le32 b0 b1 b2 b3) 0 = b0 ∧ byteOf (le32 b0 b1 b2 b3) 1 = b1 ∧
    byteOf (le32 b0 b1 b2 b3) 2 = b2 ∧ byteOf (le32 b0 b1 b2 b3) 3 = b3 := by
  refine ⟨?_, ?_, ?_, ?_⟩ <;>
  · apply BitVec.eq_of_getLsbD_eq
    intro i hi
    simp only [le32, byteOf, BitVec.getLsbD_append, BitVec.getLsbD_extractLsb']
    interval_cases i <;> simp

/-- Reading back the word that was written (R195 (a)). -/
theorem Memory.word_setWord (m : Memory) (a : Nat) (v : Word) (h : m.wf = true) (ha : a + 4 ≤ m.size) :
    (m.setWord a v).word a = v := by
  unfold Memory.word
  rw [m.byte_setWord a a v h ha, m.byte_setWord a (a + 1) v h ha, m.byte_setWord a (a + 2) v h ha,
    m.byte_setWord a (a + 3) v h ha]
  rw [if_pos (by omega), if_pos (by omega), if_pos (by omega), if_pos (by omega)]
  simp

/-! ## The checked accesses (R51, R56) -/

theorem Memory.read8_ok (m : Memory) (a : Nat) (h : a + 1 ≤ m.size) : m.read8 a = .ok (m.byte a) := by
  simp [Memory.read8, Memory.holds, h]

theorem Memory.read8_error (m : Memory) (a : Nat) (h : m.size < a + 1) : m.read8 a = .error (.outOfBounds a) := by
  simp [Memory.read8, Memory.holds, Nat.not_le.mpr h]

theorem Memory.read32_ok (m : Memory) (a : Nat) (h : a + 4 ≤ m.size) : m.read32 a = .ok (m.word a) := by
  simp [Memory.read32, Memory.holds, h]

theorem Memory.read32_error (m : Memory) (a : Nat) (h : m.size < a + 4) : m.read32 a = .error (.outOfBounds a) := by
  simp [Memory.read32, Memory.holds, Nat.not_le.mpr h]

theorem Memory.write8_ok (m : Memory) (a : Nat) (v : Byte) (h : a + 1 ≤ m.size) : m.write8 a v = .ok (m.setByte a v) := by
  simp [Memory.write8, Memory.holds, h]

theorem Memory.write8_error (m : Memory) (a : Nat) (v : Byte) (h : m.size < a + 1) :
    m.write8 a v = .error (.outOfBounds a) := by
  simp [Memory.write8, Memory.holds, Nat.not_le.mpr h]

theorem Memory.write32_ok (m : Memory) (a : Nat) (v : Word) (h : a + 4 ≤ m.size) : m.write32 a v = .ok (m.setWord a v) := by
  simp [Memory.write32, Memory.holds, h]

theorem Memory.write32_error (m : Memory) (a : Nat) (v : Word) (h : m.size < a + 4) :
    m.write32 a v = .error (.outOfBounds a) := by
  simp [Memory.write32, Memory.holds, Nat.not_le.mpr h]

/-! ## Windows and byte strings -/

/-- Bytes stored within memory, one after another. -/
theorem Memory.setBytes_spec (bs : List Byte) (m : Memory) (a : Nat) (h : m.wf = true) :
    (m.setBytes a bs).wf = true ∧ (m.setBytes a bs).size = m.size ∧
    ∀ b, (m.setBytes a bs).byte b =
      if a ≤ b ∧ b < a + bs.length ∧ b < m.size then (bs[b - a]?).getD unlistedByte else m.byte b := by
  induction bs generalizing m a with
  | nil =>
    refine ⟨h, rfl, fun b => ?_⟩
    rw [if_neg (by simp only [List.length_nil]; omega)]; rfl
  | cons v t ih =>
    simp only [Memory.setBytes]
    by_cases ha : a < m.size
    · obtain ⟨w, z, g⟩ := ih (m.setByte a v) (a + 1) (m.wf_setByte a v h ha)
      rw [if_pos ha]
      refine ⟨w, z, fun b => ?_⟩
      rw [g b, Memory.byte_setByte _ _ _ _ h, Memory.size_setByte]
      simp only [List.length_cons]
      by_cases hb : b = a
      · subst hb; simp [ha]
      · by_cases hc : a + 1 ≤ b ∧ b < a + 1 + t.length ∧ b < m.size
        · rw [if_pos hc, if_pos (by omega)]
          obtain ⟨d, rfl⟩ : ∃ d, b = a + 1 + d := ⟨b - (a + 1), by omega⟩
          simp [show a + 1 + d - a = d + 1 by omega]
        · rw [if_neg hc, if_neg hb, if_neg (by omega)]
    · obtain ⟨w, z, g⟩ := ih m (a + 1) h
      rw [if_neg ha]
      refine ⟨w, z, fun b => ?_⟩
      rw [g b]
      simp only [List.length_cons]
      rw [if_neg (by omega), if_neg (by omega)]

/-- A window is what a byte string of its own length in memory begins with. -/
theorem Memory.window_length_le (m : Memory) (a n : Nat) : (m.window a n).length ≤ n := by
  induction n generalizing a with
  | zero => simp [Memory.window]
  | succ n ih => simp only [Memory.window]; split <;> simp [ih]

theorem Memory.window_getElem? (m : Memory) (a n k : Nat) :
    (m.window a n)[k]? = if k < n ∧ a + k < m.size then some (m.byte (a + k)) else none := by
  induction n generalizing a k with
  | zero => simp [Memory.window]
  | succ n ih =>
    simp only [Memory.window]
    by_cases ha : a < m.size
    · rw [if_pos ha]
      cases k with
      | zero => simp [ha]
      | succ k => simp only [List.getElem?_cons_succ, ih, show a + 1 + k = a + (k + 1) by omega]; simp
    · rw [if_neg ha, if_neg (by omega)]; simp

/-- The window at an address is the bytes that stand there, then whatever follows them. -/
theorem Memory.window_append (m : Memory) (a n : Nat) (bs : List Byte) (hn : bs.length ≤ n) (hm : a + bs.length ≤ m.size)
    (hb : ∀ k, (h : k < bs.length) → m.byte (a + k) = bs[k]) : ∃ rest, m.window a n = bs ++ rest := by
  induction bs generalizing a n with
  | nil => exact ⟨_, rfl⟩
  | cons v t ih =>
    simp only [List.length_cons] at hn hm
    obtain ⟨n, rfl⟩ : ∃ k, n = k + 1 := ⟨n - 1, by omega⟩
    obtain ⟨rest, hr⟩ := ih (a + 1) n (by omega) (by omega) (fun k h => by
      have := hb (k + 1) (by simp only [List.length_cons]; omega)
      rw [show a + 1 + k = a + (k + 1) by omega, this]; rfl)
    refine ⟨rest, ?_⟩
    have h0 := hb 0 (by simp)
    simp only [Memory.window]
    rw [if_pos (by omega), hr]
    simp only [Nat.add_zero, List.getElem_cons_zero] at h0
    rw [h0]; rfl

/-! ## Stores of the state (R51, R127) -/

/-- All a 32-bit store can do. -/
theorem State.store32_cases (s : State) (a v : Word) :
    (a.toNat + 4 ≤ s.memory.size ∧ s.store32 a v = .ok (s.setMemory (s.memory.setWord a.toNat v))) ∨
    (s.memory.size < a.toNat + 4 ∧ s.store32 a v = .error (.outOfBounds a.toNat)) := by
  by_cases h : a.toNat + 4 ≤ s.memory.size
  · exact .inl ⟨h, by simp only [State.store32, Memory.write32_ok _ _ _ h]; rfl⟩
  · exact .inr ⟨by omega, by simp only [State.store32, Memory.write32_error _ _ _ (Nat.lt_of_not_le h)]; rfl⟩

/-- All an 8-bit store can do. -/
theorem State.store8_cases (s : State) (a : Word) (v : Byte) :
    (a.toNat + 1 ≤ s.memory.size ∧ s.store8 a v = .ok (s.setMemory (s.memory.setByte a.toNat v))) ∨
    (s.memory.size < a.toNat + 1 ∧ s.store8 a v = .error (.outOfBounds a.toNat)) := by
  by_cases h : a.toNat + 1 ≤ s.memory.size
  · exact .inl ⟨h, by simp only [State.store8, Memory.write8_ok _ _ _ h]; rfl⟩
  · exact .inr ⟨by omega, by simp only [State.store8, Memory.write8_error _ _ _ (Nat.lt_of_not_le h)]; rfl⟩

end Sys2Proof.Machine
end

