-- ==== Sys2Proof/Laws/Decode.lean ====
section
/-! SUPPORT. What the fields of the decoder and the encoder do to each other (30_encoding.md R81 to R87). -/

namespace Sys2Proof

open Sys2Proof.Machine

/-! ## Register numbers -/

@[simp] theorem Reg.ofCode_code (r : Reg) : Reg.ofCode r.code = r := by cases r <;> rfl

@[simp] theorem Reg8.ofCode_code (r : Reg8) : Reg8.ofCode r.code = r := by cases r <;> rfl

@[simp] theorem Reg.code_ofCode (c : BitVec 3) : (Reg.ofCode c).code = c := by revert c; decide

@[simp] theorem Reg8.code_ofCode (c : BitVec 3) : (Reg8.ofCode c).code = c := by revert c; decide

/-! ## The ModRM byte (R83) -/

@[simp] theorem modRMByte_mod (mod : BitVec 2) (reg rm : BitVec 3) : (modRMByte mod reg rm).extractLsb' 6 2 = mod := by
  revert mod reg rm; decide

@[simp] theorem modRMByte_reg (mod : BitVec 2) (reg rm : BitVec 3) : (modRMByte mod reg rm).extractLsb' 3 3 = reg := by
  revert mod reg rm; decide

@[simp] theorem modRMByte_rm (mod : BitVec 2) (reg rm : BitVec 3) : (modRMByte mod reg rm).extractLsb' 0 3 = rm := by
  revert mod reg rm; decide

theorem modRMByte_fields (m : Byte) : modRMByte (m.extractLsb' 6 2) (m.extractLsb' 3 3) (m.extractLsb' 0 3) = m := by
  revert m; decide

/-! ## Fields -/

@[simp] theorem take8_cons (off : Nat) (b : Byte) (rest : List Byte) : take8 off (b :: rest) = .ok (b, rest) := rfl

@[simp] theorem take32_leBytes (off : Nat) (w : Word) (rest : List Byte) : take32 off (leBytes w ++ rest) = .ok (w, rest) := by
  simp [leBytes, take32]

@[simp] theorem length_leBytes (w : Word) : (leBytes w).length = 4 := rfl

theorem take8_ok {off : Nat} {bs rest : List Byte} {b : Byte} (h : take8 off bs = .ok (b, rest)) : bs = b :: rest := by
  cases bs with
  | nil => cases h
  | cons c t => cases h; rfl

theorem take32_ok {off : Nat} {bs rest : List Byte} {w : Word} (h : take32 off bs = .ok (w, rest)) :
    bs = leBytes w ++ rest := by
  match bs, h with
  | b0 :: b1 :: b2 :: b3 :: t, h =>
    cases h
    obtain ⟨h0, h1, h2, h3⟩ := byteOf_le32 b0 b1 b2 b3
    simp only [leBytes, h0, h1, h2, h3, List.cons_append, List.nil_append]

/-! ## The ModRM group (R84, R125) -/

theorem length_encode_mem (reg : BitVec 3) (m : MemForm) : (m.encode reg).length = m.mlen := by
  cases m <;> simp [MemForm.encode, MemForm.mlen]

@[simp] theorem length_encode_rm32 (reg : BitVec 3) (o : RM32) : (o.encode reg).length = o.mlen := by
  cases o <;> simp [RM32.encode, RM32.mlen, length_encode_mem]

@[simp] theorem length_encode_rm8 (reg : BitVec 3) (o : RM8) : (o.encode reg).length = o.mlen := by
  cases o <;> simp [RM8.encode, RM8.mlen, length_encode_mem]

/-- The `rm` fields of a 32-bit operand. -/
def RM32.loc : RM32 → RmLoc
  | .reg r => .direct r.code
  | .mem m => .mem m

/-- The `rm` fields of an 8-bit operand. -/
def RM8.loc : RM8 → RmLoc
  | .reg r => .direct r.code
  | .mem m => .mem m

@[simp] theorem RM32.rm32_loc (o : RM32) : o.loc.rm32 = o := by cases o <;> simp [RM32.loc, RmLoc.rm32]

@[simp] theorem RM8.rm8_loc (o : RM8) : o.loc.rm8 = o := by cases o <;> simp [RM8.loc, RmLoc.rm8]

@[simp] theorem RM32.mlen_loc (o : RM32) : o.loc.mlen = o.mlen := by cases o <;> rfl

@[simp] theorem RM8.mlen_loc (o : RM8) : o.loc.mlen = o.mlen := by cases o <;> rfl

theorem takeModRM_mem (reg : BitVec 3) (m : MemForm) (rest : List Byte) (h : m.wellFormed = true) :
    takeModRM (m.encode reg ++ rest) = .ok (⟨reg, .mem m⟩, rest) := by
  cases m with
  | abs d => simp [takeModRM, takeMem, MemForm.encode, bind, Except.bind]
  | base r =>
    cases r <;> simp [MemForm.wellFormed] at h <;>
      simp [takeModRM, takeMem, MemForm.encode, Reg.code, Reg.ofCode, bind, Except.bind]
  | baseDisp8 r d =>
    cases r <;> simp [MemForm.wellFormed] at h <;>
      simp [takeModRM, takeMem, MemForm.encode, Reg.code, Reg.ofCode, bind, Except.bind]
  | baseDisp32 r d =>
    cases r <;> simp [MemForm.wellFormed] at h <;>
      simp [takeModRM, takeMem, MemForm.encode, Reg.code, Reg.ofCode, bind, Except.bind]

/-- Decoding the ModRM group of a well-formed 32-bit operand gives the group back. -/
theorem takeModRM_rm32 (reg : BitVec 3) (o : RM32) (rest : List Byte) (h : o.wellFormed = true) :
    takeModRM (o.encode reg ++ rest) = .ok (⟨reg, o.loc⟩, rest) := by
  cases o with
  | reg r => simp [takeModRM, RM32.encode, RM32.loc, bind, Except.bind]
  | mem m => exact takeModRM_mem reg m rest h

/-- Decoding the ModRM group of a well-formed 8-bit operand gives the group back. -/
theorem takeModRM_rm8 (reg : BitVec 3) (o : RM8) (rest : List Byte) (h : o.wellFormed = true) :
    takeModRM (o.encode reg ++ rest) = .ok (⟨reg, o.loc⟩, rest) := by
  cases o with
  | reg r => simp [takeModRM, RM8.encode, RM8.loc, bind, Except.bind]
  | mem m => exact takeModRM_mem reg m rest h

/-- A register operand's ModRM byte, the SIB form's number 4 included (R85). -/
@[simp] theorem takeModRM_direct (reg c : BitVec 3) (rest : List Byte) :
    takeModRM (modRMByte 3#2 reg c :: rest) = .ok (⟨reg, .direct c⟩, rest) := by
  simp [takeModRM, bind, Except.bind]

/-- A 32-bit field cut short reports its own offset (R56, R124). -/
theorem take32_take_leBytes (off : Nat) (w : Word) (j : Nat) (h : j < 4) :
    take32 off ((leBytes w).take j) = .error (.outOfBytes off) := by
  interval_cases j <;> rfl

theorem takeModRM_take_mem (reg : BitVec 3) (m : MemForm) (hw : m.wellFormed = true) (j : Nat) (h : j < m.mlen) :
    takeModRM ((m.encode reg).take j) = .error (.outOfBytes (if j = 0 then 1 else 2)) := by
  cases j with
  | zero => rfl
  | succ j =>
    cases m with
    | abs d =>
      simp only [MemForm.mlen] at h
      simp [takeModRM, takeMem, MemForm.encode, take32_take_leBytes 2 d j (by omega), bind, Except.bind]
    | base r => simp only [MemForm.mlen] at h; omega
    | baseDisp8 r d =>
      simp only [MemForm.mlen] at h
      obtain rfl : j = 0 := by omega
      cases r <;> simp [MemForm.wellFormed] at hw <;>
        simp [takeModRM, takeMem, take8, MemForm.encode, Reg.code, bind, Except.bind]
    | baseDisp32 r d =>
      simp only [MemForm.mlen] at h
      cases r <;> simp [MemForm.wellFormed] at hw <;>
        simp [takeModRM, takeMem, MemForm.encode, Reg.code, take32_take_leBytes 2 d j (by omega), bind, Except.bind]

/-- A ModRM group cut short reports the ModRM byte or the displacement, whichever does not fit (R124). -/
theorem takeModRM_take_rm32 (reg : BitVec 3) (o : RM32) (hw : o.wellFormed = true) (j : Nat) (h : j < o.mlen) :
    takeModRM ((o.encode reg).take j) = .error (.outOfBytes (if j = 0 then 1 else 2)) := by
  cases o with
  | reg r =>
    obtain rfl : j = 0 := by simp only [RM32.mlen] at h; omega
    rfl
  | mem m => exact takeModRM_take_mem reg m hw j h

/-- The same for an 8-bit operand. -/
theorem takeModRM_take_rm8 (reg : BitVec 3) (o : RM8) (hw : o.wellFormed = true) (j : Nat) (h : j < o.mlen) :
    takeModRM ((o.encode reg).take j) = .error (.outOfBytes (if j = 0 then 1 else 2)) := by
  cases o with
  | reg r =>
    obtain rfl : j = 0 := by simp only [RM8.mlen] at h; omega
    rfl
  | mem m => exact takeModRM_take_mem reg m hw j h

theorem takeMem_ok {mod : BitVec 2} {rm : BitVec 3} {bs rest : List Byte} {f : MemForm}
    (h : takeMem mod rm bs = .ok (f, rest)) (hmod : mod ≠ 3#2) (hrm : rm ≠ 4#3) (reg : BitVec 3) :
    f.wellFormed = true ∧ modRMByte mod reg rm :: bs = f.encode reg ++ rest := by
  have hesp : Reg.ofCode rm ≠ .esp := fun e => hrm (by rw [← Reg.code_ofCode rm, e]; rfl)
  simp only [takeMem, bind, Except.bind] at h
  split_ifs at h with h0 h5 h1
  · cases ht : take32 2 bs with
    | error e => simp [ht] at h
    | ok p =>
      obtain ⟨d, r⟩ := p
      simp only [ht] at h
      cases h
      subst h0 h5
      exact ⟨rfl, by rw [take32_ok ht]; rfl⟩
  · cases h
    have hebp : Reg.ofCode rm ≠ .ebp := fun e => h5 (by rw [← Reg.code_ofCode rm, e]; rfl)
    subst h0
    exact ⟨by simp [MemForm.wellFormed, hesp, hebp], by simp [MemForm.encode]⟩
  · cases ht : take8 2 bs with
    | error e => simp [ht] at h
    | ok p =>
      obtain ⟨d, r⟩ := p
      simp only [ht] at h
      cases h
      subst h1
      exact ⟨by simp [MemForm.wellFormed, hesp], by rw [take8_ok ht]; simp [MemForm.encode]⟩
  · cases ht : take32 2 bs with
    | error e => simp [ht] at h
    | ok p =>
      obtain ⟨d, r⟩ := p
      simp only [ht] at h
      cases h
      have : mod = 2#2 := by revert mod; decide
      subst this
      exact ⟨by simp [MemForm.wellFormed, hesp], by rw [take32_ok ht]; simp [MemForm.encode]⟩

/-- All a completed ModRM decode can give: the bytes were the group of a well-formed operand, read as 32 or as 8 bits wide. -/
theorem takeModRM_ok {bs rest : List Byte} {m : ModRM} (h : takeModRM bs = .ok (m, rest)) :
    m.loc.rm32.wellFormed = true ∧ m.loc.rm8.wellFormed = true ∧ bs = m.loc.rm32.encode m.reg ++ rest ∧
    bs = m.loc.rm8.encode m.reg ++ rest ∧ m.loc.rm32.mlen = m.loc.mlen ∧ m.loc.rm8.mlen = m.loc.mlen := by
  cases bs with
  | nil => cases h
  | cons b t =>
    simp only [takeModRM, take8_cons, bind, Except.bind] at h
    have hb := modRMByte_fields b
    generalize b.extractLsb' 6 2 = mod at h hb
    generalize b.extractLsb' 3 3 = reg at h hb
    generalize b.extractLsb' 0 3 = rm at h hb
    subst hb
    split_ifs at h with h3 h4
    · cases h
      subst h3
      simp [RmLoc.rm32, RmLoc.rm8, RM32.wellFormed, RM8.wellFormed, RM32.encode, RM8.encode, RM32.mlen, RM8.mlen, RmLoc.mlen]
    · cases hm : takeMem mod rm t with
      | error e => simp [hm] at h
      | ok p =>
        obtain ⟨f, r⟩ := p
        simp only [hm] at h
        cases h
        obtain ⟨w, e⟩ := takeMem_ok hm h3 h4 reg
        exact ⟨w, w, e, e, rfl, rfl⟩

/-! ## The dispatch table (R89, R91) -/

/-- The leading bytes with no dispatch entry are exactly those that no row covers. -/
theorem dispatch_none_iff (b : Byte) : dispatch b = none ↔ ∀ r ∈ opcodeTable, r.covers b = false := by
  simp [dispatch]

/-- A handler is reached through a row of the table that covers the byte. -/
theorem dispatch_some {b : Byte} {h : Handler} (e : dispatch b = some h) :
    ∃ r ∈ opcodeTable, r.handler = h ∧ r.covers b = true := by
  simp only [dispatch, Option.map_eq_some_iff] at e
  obtain ⟨r, hr, rfl⟩ := e
  exact ⟨r, List.mem_of_find?_eq_some hr, rfl, List.find?_some (p := fun x : OpcodeRow => x.covers b) hr⟩

/-! A handler that takes a register number from the opcode is reached by the opcodes of its own row only (R26, R82): the checked
index is in range, and it gives the opcode back. -/

theorem dispatch_incR32 : ∀ b : Byte, dispatch b = some .incR32 →
    regOfIndex (b.toNat - 0x40) = .ok (Reg.ofCode (b.extractLsb' 0 3)) ∧ opcodeWith 0x40#8 (b.extractLsb' 0 3) = b := by decide

theorem dispatch_pushR32 : ∀ b : Byte, dispatch b = some .pushR32 →
    regOfIndex (b.toNat - 0x50) = .ok (Reg.ofCode (b.extractLsb' 0 3)) ∧ opcodeWith 0x50#8 (b.extractLsb' 0 3) = b := by decide

theorem dispatch_popR32 : ∀ b : Byte, dispatch b = some .popR32 →
    regOfIndex (b.toNat - 0x58) = .ok (Reg.ofCode (b.extractLsb' 0 3)) ∧ opcodeWith 0x58#8 (b.extractLsb' 0 3) = b := by decide

theorem dispatch_movR8Imm8 : ∀ b : Byte, dispatch b = some .movR8Imm8 →
    reg8OfIndex (b.toNat - 0xB0) = .ok (Reg8.ofCode (b.extractLsb' 0 3)) ∧ opcodeWith 0xB0#8 (b.extractLsb' 0 3) = b := by decide

theorem dispatch_movR32Imm32 : ∀ b : Byte, dispatch b = some .movR32Imm32 →
    regOfIndex (b.toNat - 0xB8) = .ok (Reg.ofCode (b.extractLsb' 0 3)) ∧ opcodeWith 0xB8#8 (b.extractLsb' 0 3) = b := by decide

/-! ## The table, byte by byte (R89) -/

@[simp] theorem dispatch_0x01 : dispatch 0x01#8 = some .addRm32R32 := by decide
@[simp] theorem dispatch_0x3B : dispatch 0x3B#8 = some .cmpR32Rm32 := by decide
@[simp] theorem dispatch_0x3C : dispatch 0x3C#8 = some .cmpAlImm8 := by decide
@[simp] theorem dispatch_0x3D : dispatch 0x3D#8 = some .cmpEaxImm32 := by decide
@[simp] theorem dispatch_0x68 : dispatch 0x68#8 = some .pushImm32 := by decide
@[simp] theorem dispatch_0x6A : dispatch 0x6A#8 = some .pushImm8 := by decide
@[simp] theorem dispatch_0x70 : dispatch 0x70#8 = some .jo := by decide
@[simp] theorem dispatch_0x71 : dispatch 0x71#8 = some .jno := by decide
@[simp] theorem dispatch_0x72 : dispatch 0x72#8 = some .jc := by decide
@[simp] theorem dispatch_0x73 : dispatch 0x73#8 = some .jnc := by decide
@[simp] theorem dispatch_0x74 : dispatch 0x74#8 = some .jz := by decide
@[simp] theorem dispatch_0x75 : dispatch 0x75#8 = some .jnz := by decide
@[simp] theorem dispatch_0x78 : dispatch 0x78#8 = some .js := by decide
@[simp] theorem dispatch_0x79 : dispatch 0x79#8 = some .jns := by decide
@[simp] theorem dispatch_0x7C : dispatch 0x7C#8 = some .jl := by decide
@[simp] theorem dispatch_0x7E : dispatch 0x7E#8 = some .jle := by decide
@[simp] theorem dispatch_0x83 : dispatch 0x83#8 = some .group83 := by decide
@[simp] theorem dispatch_0x88 : dispatch 0x88#8 = some .movRm8R8 := by decide
@[simp] theorem dispatch_0x89 : dispatch 0x89#8 = some .movRm32R32 := by decide
@[simp] theorem dispatch_0x8A : dispatch 0x8A#8 = some .movR8Rm8 := by decide
@[simp] theorem dispatch_0x8B : dispatch 0x8B#8 = some .movR32Rm32 := by decide
@[simp] theorem dispatch_0xC3 : dispatch 0xC3#8 = some .ret := by decide
@[simp] theorem dispatch_0xC7 : dispatch 0xC7#8 = some .movRm32Imm32 := by decide
@[simp] theorem dispatch_0xC9 : dispatch 0xC9#8 = some .leave := by decide
@[simp] theorem dispatch_0xCD : dispatch 0xCD#8 = some .int := by decide
@[simp] theorem dispatch_0xE8 : dispatch 0xE8#8 = some .callRel32 := by decide
@[simp] theorem dispatch_0xE9 : dispatch 0xE9#8 = some .jmpRel32 := by decide
@[simp] theorem dispatch_0xEB : dispatch 0xEB#8 = some .jmpRel8 := by decide
@[simp] theorem dispatch_0xEC : dispatch 0xEC#8 = some .inAlDx := by decide
@[simp] theorem dispatch_0xEE : dispatch 0xEE#8 = some .outDxAl := by decide
@[simp] theorem dispatch_0xFF : dispatch 0xFF#8 = some .groupFF := by decide

@[simp] theorem dispatch_0x40_reg (c : BitVec 3) : dispatch (opcodeWith 0x40#8 c) = some .incR32 := by revert c; decide

@[simp] theorem index_0x40_reg (c : BitVec 3) :
    regOfIndex ((opcodeWith 0x40#8 c).toNat - 0x40) = .ok (Reg.ofCode c) := by revert c; decide

@[simp] theorem dispatch_0x50_reg (c : BitVec 3) : dispatch (opcodeWith 0x50#8 c) = some .pushR32 := by revert c; decide

@[simp] theorem index_0x50_reg (c : BitVec 3) :
    regOfIndex ((opcodeWith 0x50#8 c).toNat - 0x50) = .ok (Reg.ofCode c) := by revert c; decide

@[simp] theorem dispatch_0x58_reg (c : BitVec 3) : dispatch (opcodeWith 0x58#8 c) = some .popR32 := by revert c; decide

@[simp] theorem index_0x58_reg (c : BitVec 3) :
    regOfIndex ((opcodeWith 0x58#8 c).toNat - 0x58) = .ok (Reg.ofCode c) := by revert c; decide

@[simp] theorem dispatch_0xB0_reg (c : BitVec 3) : dispatch (opcodeWith 0xB0#8 c) = some .movR8Imm8 := by revert c; decide

@[simp] theorem index_0xB0_reg (c : BitVec 3) :
    reg8OfIndex ((opcodeWith 0xB0#8 c).toNat - 0xB0) = .ok (Reg8.ofCode c) := by revert c; decide

@[simp] theorem dispatch_0xB8_reg (c : BitVec 3) : dispatch (opcodeWith 0xB8#8 c) = some .movR32Imm32 := by revert c; decide

@[simp] theorem index_0xB8_reg (c : BitVec 3) :
    regOfIndex ((opcodeWith 0xB8#8 c).toNat - 0xB8) = .ok (Reg.ofCode c) := by revert c; decide

end Sys2Proof
end

