-- ==== Sys2Proof/Laws/Flags.lean ====
section
/-! SUPPORT. The flags word: each flag is a bit of its own, and what a subtraction leaves in it (10_state.md R30 to R32,
41_arith_flags.md R150). -/

namespace Sys2Proof.Machine

/-- Setting one flag changes that flag only (R32). -/
@[simp] theorem isSet_setFlag (w : BitVec 16) (k j : FlagKind) (b : Bool) :
    isSet (setFlag w k b) j = if j = k then b else isSet w j := by
  cases k <;> cases j <;> cases b <;> simp [isSet, setFlag, FlagKind.mask, FlagKind.bit]

/-- Setting a flag changes none of the unmodelled bits (R30). -/
@[simp] theorem setFlag_reserved (w : BitVec 16) (k : FlagKind) (b : Bool) :
    setFlag w k b &&& ~~~flagsMask = w &&& ~~~flagsMask := by
  apply BitVec.eq_of_getLsbD_eq
  intro i hi
  cases k <;> cases b <;> simp only [setFlag, FlagKind.mask, flagsMask, Bool.false_eq_true, if_true, if_false,
    BitVec.getLsbD_and, BitVec.getLsbD_or, BitVec.getLsbD_not] <;> interval_cases i <;> simp

/-- What `update_flags_sub` leaves: every flag written, none kept (R31, R150). -/
theorem isSet_flagsAfterSub (w : BitVec 16) (a b : Word) (r : BitVec 64) (k : FlagKind) :
    isSet (flagsAfterSub w a b r) k =
      match k with
      | .carry => subCarry r
      | .zero => subZero r
      | .sign => subSign r
      | .overflow => subOverflow a b r := by
  cases k <;> simp [flagsAfterSub]

@[simp] theorem flagsAfterSub_reserved (w : BitVec 16) (a b : Word) (r : BitVec 64) :
    flagsAfterSub w a b r &&& ~~~flagsMask = w &&& ~~~flagsMask := by
  simp [flagsAfterSub]

/-- A word whose unmodelled bits are zero is determined by its four flags (R30). -/
theorem eflags_ext (w v : BitVec 16) (hw : w &&& ~~~flagsMask = 0#16) (hv : v &&& ~~~flagsMask = 0#16)
    (h : ∀ k, isSet w k = isSet v k) : w = v := by
  apply BitVec.eq_of_getLsbD_eq
  intro i hi
  have hc := h .carry; have hz := h .zero; have hs := h .sign; have ho := h .overflow
  simp only [isSet, FlagKind.bit] at hc hz hs ho
  have gw := congrArg (fun x => x.getLsbD i) hw
  have gv := congrArg (fun x => x.getLsbD i) hv
  simp only [BitVec.getLsbD_and, BitVec.getLsbD_not, flagsMask] at gw gv
  interval_cases i <;> simp_all

/-- The low 32 bits of the 64-bit difference are the 32-bit difference (R134 (c)). -/
@[simp] theorem sub64_low (a b : Word) : (sub64 a b).extractLsb' 0 32 = a - b := by
  apply BitVec.eq_of_toNat_eq
  simp only [sub64, BitVec.extractLsb'_toNat, BitVec.toNat_sub, BitVec.toNat_setWidth]
  omega

/-- Bit 32 of the 64-bit difference is the unsigned borrow (R134 (c), R150). -/
theorem subCarry_iff (a b : Word) : subCarry (sub64 a b) = true ↔ a.toNat < b.toNat := by
  have ha := a.isLt
  have hb := b.isLt
  simp only [subCarry, BitVec.getLsbD, Nat.testBit_eq_decide_div_mod_eq, decide_eq_true_eq, sub64, BitVec.toNat_sub,
    BitVec.toNat_setWidth]
  omega

/-- Zero means equality (R150). -/
theorem subZero_iff (a b : Word) : subZero (sub64 a b) = true ↔ a = b := by
  simp only [subZero, sub64_low, beq_iff_eq]
  constructor
  · intro h; bv_omega
  · rintro rfl; simp

theorem sub64_bit31 (a b : Word) : (sub64 a b).getLsbD 31 = (a - b).msb := by
  have h := congrArg (fun w => w.getLsbD 31) (sub64_low a b)
  simp only [BitVec.getLsbD_extractLsb', Nat.zero_add, show decide (31 < 32) = true from rfl, Bool.true_and] at h
  rw [h, BitVec.msb_eq_getLsbD_last]

/-- Sign is the complement of the difference's top bit (R150). -/
theorem subSign_iff (a b : Word) : subSign (sub64 a b) = true ↔ (a - b).msb = false := by
  rw [subSign, sub64_bit31, Bool.not_eq_true']

/-- Overflow means that the signed difference is out of range (R150). -/
theorem subOverflow_iff (a b : Word) :
    subOverflow a b (sub64 a b) = true ↔ a.toInt - b.toInt < -2 ^ 31 ∨ 2 ^ 31 ≤ a.toInt - b.toInt := by
  have ha := a.isLt
  have hb := b.isLt
  simp only [subOverflow, sub64_bit31, Bool.and_eq_true, bne_iff_ne, ne_eq, BitVec.msb_eq_decide, BitVec.toInt_eq_toNat_cond,
    BitVec.toNat_sub, decide_eq_decide]
  split_ifs <;> omega

end Sys2Proof.Machine
end

