-- ==== Sys2Proof/Laws/Ops.lean ====
section
/-! SUPPORT. Everything each shared operation can do, said once: operand accessors, stack, ports, the end of a step, the step. -/

namespace Sys2Proof.Machine

/-! ## Operand accessors (40_execution_core.md R126 to R129) -/

/-- All `get_rm32` can do. -/
theorem getRm32_cases (s : State) (o : RM32) :
    (Rm32InMemory s o ∧ getRm32 s o = .ok (rm32Value s o)) ∨
    (∃ m, o = .mem m ∧ s.memory.size < (effAddr s m).toNat + 4 ∧
      getRm32 s o = .error (.outOfBounds (effAddr s m).toNat)) := by
  cases o with
  | reg r => exact .inl ⟨trivial, rfl⟩
  | mem m =>
    by_cases h : (effAddr s m).toNat + 4 ≤ s.memory.size
    · exact .inl ⟨h, Memory.read32_ok _ _ h⟩
    · exact .inr ⟨m, rfl, by omega, Memory.read32_error _ _ (by omega)⟩

/-- All `get_rm8` can do. -/
theorem getRm8_cases (s : State) (o : RM8) :
    (Rm8InMemory s o ∧ getRm8 s o = .ok (rm8Value s o)) ∨
    (∃ m, o = .mem m ∧ s.memory.size < (effAddr s m).toNat + 1 ∧
      getRm8 s o = .error (.outOfBounds (effAddr s m).toNat)) := by
  cases o with
  | reg r => exact .inl ⟨trivial, rfl⟩
  | mem m =>
    by_cases h : (effAddr s m).toNat + 1 ≤ s.memory.size
    · exact .inl ⟨h, Memory.read8_ok _ _ h⟩
    · exact .inr ⟨m, rfl, by omega, Memory.read8_error _ _ (by omega)⟩

/-- What a completed store to an operand leaves alone, whatever the operand is. -/
def SameButRegsAndBytes (s t : State) : Prop :=
  t.eip = s.eip ∧ SameFlags s t ∧ SameOutside s t ∧ t.memory.size = s.memory.size ∧
  (s.memory.wf = true → t.memory.wf = true)

theorem wordStored_setMemory (s : State) (a : Nat) (v : Word) (hw : s.memory.wf = true) (h : a + 4 ≤ s.memory.size) :
    WordStored a v s (s.setMemory (s.memory.setWord a v)) := by
  refine ⟨fun k hk => ?_, rfl, fun k hk => ?_⟩
  · simp only [State.setMemory_memory, Memory.byte_setWord _ _ _ _ hw h]
    rw [if_pos (by omega), Nat.add_sub_cancel_left]
  · simp only [State.setMemory_memory, Memory.byte_setWord _ _ _ _ hw h]
    rw [if_neg (by omega)]

theorem byteStored_setMemory (s : State) (a : Nat) (v : Byte) (hw : s.memory.wf = true) :
    ByteStored a v s (s.setMemory (s.memory.setByte a v)) := by
  refine ⟨?_, rfl, fun k hk => ?_⟩
  · simp [Memory.byte_setByte _ _ _ _ hw]
  · simp only [State.setMemory_memory, Memory.byte_setByte _ _ _ _ hw]
    rw [if_neg (by omega)]

/-- All `set_rm32` can do. -/
theorem setRm32_cases (s : State) (o : RM32) (v : Word) :
    (Rm32InMemory s o ∧ ∃ t, setRm32 s o v = .ok t ∧ SameButRegsAndBytes s t ∧
      (s.memory.wf = true → Rm32Becomes o v s t)) ∨
    (∃ m, o = .mem m ∧ s.memory.size < (effAddr s m).toNat + 4 ∧
      setRm32 s o v = .error (.outOfBounds (effAddr s m).toNat)) := by
  cases o with
  | reg r =>
    exact .inl ⟨trivial, _, rfl, ⟨rfl, rfl, ⟨rfl, rfl, rfl, rfl, rfl⟩, rfl, id⟩, fun _ =>
      ⟨by simp, fun q hq => by simp at hq; simp [hq], rfl, fun _ => rfl⟩⟩
  | mem m =>
    rcases s.store32_cases (effAddr s m) v with ⟨h, e⟩ | ⟨h, e⟩
    · exact .inl ⟨h, _, e, ⟨rfl, rfl, ⟨rfl, rfl, rfl, rfl, rfl⟩, rfl, fun w => s.memory.wf_setWord _ _ w h⟩, fun w =>
        ⟨fun _ _ => rfl, wordStored_setMemory s _ v w h⟩⟩
    · exact .inr ⟨m, rfl, h, e⟩

/-- Writing an alias (R24). -/
theorem reg8Becomes_setReg8 (s : State) (r : Reg8) (v : Byte) : Reg8Becomes r v s (s.setReg8 r v) := by
  refine ⟨by simp, ?_, fun q hq => ?_⟩
  · simp only [State.reg_setReg8, if_true]
    exact aliasWrite_rest _ _ _
  · simp at hq; simp [hq]

/-- All `set_rm8` can do. -/
theorem setRm8_cases (s : State) (o : RM8) (v : Byte) :
    (Rm8InMemory s o ∧ ∃ t, setRm8 s o v = .ok t ∧ SameButRegsAndBytes s t ∧
      (s.memory.wf = true → Rm8Becomes o v s t)) ∨
    (∃ m, o = .mem m ∧ s.memory.size < (effAddr s m).toNat + 1 ∧
      setRm8 s o v = .error (.outOfBounds (effAddr s m).toNat)) := by
  cases o with
  | reg r =>
    exact .inl ⟨trivial, _, rfl, ⟨rfl, rfl, ⟨rfl, rfl, rfl, rfl, rfl⟩, rfl, id⟩, fun _ =>
      ⟨reg8Becomes_setReg8 s r v, rfl, fun _ => rfl⟩⟩
  | mem m =>
    rcases s.store8_cases (effAddr s m) v with ⟨h, e⟩ | ⟨h, e⟩
    · exact .inl ⟨h, _, e, ⟨rfl, rfl, ⟨rfl, rfl, rfl, rfl, rfl⟩, rfl,
        fun w => s.memory.wf_setByte _ _ w (by omega)⟩, fun w =>
        ⟨fun _ _ => rfl, byteStored_setMemory s _ v w⟩⟩
    · exact .inr ⟨m, rfl, h, e⟩

/-! ## The stack (40_execution_core.md R130) -/

/-- All `push32` can do. -/
theorem push32_cases (s : State) (v : Word) :
    (s.pushAddr.toNat + 4 ≤ s.memory.size ∧
      push32 s v = .ok ((s.setMemory (s.memory.setWord s.pushAddr.toNat v)).setReg .esp s.pushAddr)) ∨
    (s.memory.size < s.pushAddr.toNat + 4 ∧ push32 s v = .error (.outOfBounds s.pushAddr.toNat)) := by
  rcases s.store32_cases s.pushAddr v with ⟨h, e⟩ | ⟨h, e⟩
  · exact .inl ⟨h, by simp only [push32, e, bind, Except.bind]⟩
  · exact .inr ⟨h, by simp only [push32, e, bind, Except.bind]⟩

/-- All `pop32` can do. -/
theorem pop32_cases (s : State) :
    ((s.reg .esp).toNat + 4 ≤ s.memory.size ∧
      pop32 s = .ok (s.memory.word (s.reg .esp).toNat, s.setReg .esp (s.reg .esp + 4#32))) ∨
    (s.memory.size < (s.reg .esp).toNat + 4 ∧ pop32 s = .error (.outOfBounds (s.reg .esp).toNat)) := by
  by_cases h : (s.reg .esp).toNat + 4 ≤ s.memory.size
  · exact .inl ⟨h, by simp only [pop32, Memory.read32_ok _ _ h, bind, Except.bind]⟩
  · exact .inr ⟨by omega, by simp only [pop32, Memory.read32_error _ _ (Nat.lt_of_not_le h), bind, Except.bind]⟩

/-! ## Completion and halting (40_execution_core.md R132) -/

@[simp] theorem complete_ok (s t : State) : complete s (.ok t) = .next t := rfl

@[simp] theorem complete_error (s : State) (r : HaltReason) : complete s (.error r) = .next (s.halt r) := rfl

/-! ## The ports and the BIOS layer (45_io_interrupt.md R241 to R246) -/

/-- What a byte drawn or taken from a line leaves alone: all but the free-value counter. -/
theorem lineByte_state (line : List Nat) (s : State) :
    (lineByte line s).2 = s ∨ (lineByte line s).2 = s.drawByte.2 := by
  unfold lineByte
  split
  · exact .inr rfl
  · split
    · exact .inl rfl
    · exact .inr rfl

/-- All `io_in8` can do: the input source never answers, or only its lines and the free-value counter change. -/
theorem ioIn8_cases (s : State) :
    (ioIn8 s = none ∧ s.input.lines = [] ∧ s.input.after = .silent) ∨
    (∃ v lines n, ioIn8 s = some (v, { s with input := { s.input with lines := lines }, freeIndex := n })) := by
  unfold ioIn8
  split
  · next line rest e =>
    right
    rcases lineByte_state line (s.setLines rest) with h | h
    · exact ⟨_, rest, s.freeIndex, congrArg some (Prod.ext rfl h)⟩
    · exact ⟨_, rest, s.freeIndex + 1, congrArg some (Prod.ext rfl h)⟩
  · next e =>
    split
    · right; exact ⟨_, s.input.lines, s.freeIndex + 1, rfl⟩
    · right; exact ⟨_, s.input.lines, s.freeIndex + 1, rfl⟩
    · next e' => left; exact ⟨rfl, e, e'⟩

/-- All `io_out8` can do. -/
theorem ioOut8_cases (port : BitVec 16) (v : Byte) (s : State) :
    ioOut8 port v s = s ∨ ioOut8 port v s = s.emit (.serialOut v) := by
  unfold ioOut8; split
  · exact .inr rfl
  · exact .inl rfl

/-- All a BIOS call can do: emit one event. -/
theorem biosCall_cases (vector : Byte) (s : State) : ∃ e, biosCall vector s = s.emit e := by
  unfold biosCall
  split
  · unfold biosVideo; split <;> exact ⟨_, rfl⟩
  · exact ⟨_, rfl⟩

/-! ## The end of a step (40_execution_core.md R122, R123) -/

/-- All the end of a step can do to a running state. -/
theorem endStep_running (s : State) (h : s.runState = .running) :
    (s.eip ≠ Config.haltSentinel ∧ s.endStep = s) ∨
    (s.eip = Config.haltSentinel ∧
      s.endStep = (s.halt .normalEnd).emit (.haltReport .normalEnd s.regs s.eip)) := by
  by_cases e : s.eip = Config.haltSentinel
  · exact .inr ⟨e, by simp [State.endStep, State.sentinel, State.report, h, e]⟩
  · exact .inl ⟨e, by simp [State.endStep, State.sentinel, State.report, h, e]⟩

/-- All the end of a step can do to a state that has halted. -/
theorem endStep_halted (s : State) (r : HaltReason) (h : s.runState = .halted r) :
    s.endStep = s.emit (.haltReport r s.regs s.eip) := by
  simp [State.endStep, State.sentinel, State.report, h]

/-- The end of a step keeps everything but the run state and the events. -/
theorem endStep_frame (s : State) :
    s.endStep.regs = s.regs ∧ s.endStep.eip = s.eip ∧ s.endStep.eflags = s.eflags ∧ s.endStep.memory = s.memory ∧
    s.endStep.quiet = s.quiet ∧ s.endStep.input = s.input ∧ s.endStep.freeIndex = s.freeIndex := by
  cases h : s.runState with
  | running =>
    rcases endStep_running s h with ⟨_, e⟩ | ⟨_, e⟩ <;> rw [e] <;> exact ⟨rfl, rfl, rfl, rfl, rfl, rfl, rfl⟩
  | halted r => rw [endStep_halted s r h]; exact ⟨rfl, rfl, rfl, rfl, rfl, rfl, rfl⟩

/-! ## The step (40_execution_core.md R120) -/

/-- A trace event changes the events only. -/
theorem traced_cases (s : State) : s.traced = s ∨ ∃ op, s.traced = s.emit (.trace s.eip op) := by
  unfold State.traced; split
  · exact .inr ⟨_, rfl⟩
  · exact .inl rfl

/-- The trace keeps every field but the events. -/
theorem traced_frame (s : State) :
    s.traced.regs = s.regs ∧ s.traced.eip = s.eip ∧ s.traced.eflags = s.eflags ∧ s.traced.memory = s.memory ∧
    s.traced.runState = s.runState ∧ s.traced.quiet = s.quiet ∧ s.traced.input = s.input ∧
    s.traced.freeIndex = s.freeIndex := by
  rcases traced_cases s with h | ⟨op, h⟩ <;> rw [h] <;> exact ⟨rfl, rfl, rfl, rfl, rfl, rfl, rfl, rfl⟩

/-- All a step that answers a next state can have done. -/
theorem step_next_cases {s t : State} (h : step s = .next t) :
    ((∃ r, s.runState = .halted r) ∧ t = s) ∨
    (s.runState = .running ∧ ∃ r, s.fetched = .error r ∧ t = (s.traced.halt r).endStep) ∨
    (s.runState = .running ∧ ∃ i u, s.fetched = .ok i ∧ exec i s.traced = .next u ∧ t = u.endStep) := by
  unfold step at h
  cases hr : s.runState with
  | halted r => simp only [hr] at h; cases h; exact .inl ⟨⟨r, rfl⟩, rfl⟩
  | running =>
    simp only [hr] at h
    cases hf : s.fetched with
    | error r => simp only [hf] at h; cases h; exact .inr (.inl ⟨rfl, r, rfl, rfl⟩)
    | ok i =>
      simp only [hf] at h
      cases he : exec i s.traced with
      | next u => simp only [he, endOutcome] at h; cases h; exact .inr (.inr ⟨rfl, i, u, rfl, he, rfl⟩)
      | fault f => simp only [he, endOutcome] at h; cases h
      | refused f => simp only [he, endOutcome] at h; cases h

end Sys2Proof.Machine
end

