-- ==== Sys2Proof/Laws/PerInstr.lean ====
section
/-! SUPPORT. Families of statements about every instruction as syntax, one lemma per constructor. -/

namespace Sys2Proof.Laws.RoundTrip

/-- The bytes of a well-formed instruction decode to it, whatever follows them. -/
def Statement (i : Instr) : Prop :=
  i.wellFormed = true → ∀ rest, decode (encode i ++ rest) = .ok (i, rest)

theorem addRm32R32 (dst : RM32) (src : Reg) : Statement (.addRm32R32 dst src) := by
  intro h rest
  simp [decode, encode, decodeHandler, bind, Except.bind, takeModRM_rm32 _ dst _ h]

theorem cmpR32Rm32 (a : Reg) (b : RM32) : Statement (.cmpR32Rm32 a b) := by
  intro h rest
  simp [decode, encode, decodeHandler, bind, Except.bind, takeModRM_rm32 _ b _ h]

theorem cmpAlImm8 (imm : Byte) : Statement (.cmpAlImm8 imm) := by
  intro _ rest
  simp [decode, encode, decodeHandler, bind, Except.bind]

theorem cmpEaxImm32 (imm : Word) : Statement (.cmpEaxImm32 imm) := by
  intro _ rest
  simp [decode, encode, decodeHandler, bind, Except.bind]

theorem incR32 (r : Reg) : Statement (.incR32 r) := by
  intro _ rest
  simp [decode, encode, decodeHandler, bind, Except.bind]

theorem pushR32 (r : Reg) : Statement (.pushR32 r) := by
  intro _ rest
  simp [decode, encode, decodeHandler, bind, Except.bind]

theorem popR32 (r : Reg) : Statement (.popR32 r) := by
  intro _ rest
  simp [decode, encode, decodeHandler, bind, Except.bind]

theorem pushImm32 (imm : Word) : Statement (.pushImm32 imm) := by
  intro _ rest
  simp [decode, encode, decodeHandler, bind, Except.bind]

theorem pushImm8 (imm : Byte) : Statement (.pushImm8 imm) := by
  intro _ rest
  simp [decode, encode, decodeHandler, bind, Except.bind]

theorem jo (rel : Byte) : Statement (.jo rel) := by
  intro _ rest
  simp [decode, encode, decodeHandler, bind, Except.bind, takeRel8]

theorem jno (rel : Byte) : Statement (.jno rel) := by
  intro _ rest
  simp [decode, encode, decodeHandler, bind, Except.bind, takeRel8]

theorem jc (rel : Byte) : Statement (.jc rel) := by
  intro _ rest
  simp [decode, encode, decodeHandler, bind, Except.bind, takeRel8]

theorem jnc (rel : Byte) : Statement (.jnc rel) := by
  intro _ rest
  simp [decode, encode, decodeHandler, bind, Except.bind, takeRel8]

theorem jz (rel : Byte) : Statement (.jz rel) := by
  intro _ rest
  simp [decode, encode, decodeHandler, bind, Except.bind, takeRel8]

theorem jnz (rel : Byte) : Statement (.jnz rel) := by
  intro _ rest
  simp [decode, encode, decodeHandler, bind, Except.bind, takeRel8]

theorem js (rel : Byte) : Statement (.js rel) := by
  intro _ rest
  simp [decode, encode, decodeHandler, bind, Except.bind, takeRel8]

theorem jns (rel : Byte) : Statement (.jns rel) := by
  intro _ rest
  simp [decode, encode, decodeHandler, bind, Except.bind, takeRel8]

theorem jl (rel : Byte) : Statement (.jl rel) := by
  intro _ rest
  simp [decode, encode, decodeHandler, bind, Except.bind, takeRel8]

theorem jle (rel : Byte) : Statement (.jle rel) := by
  intro _ rest
  simp [decode, encode, decodeHandler, bind, Except.bind, takeRel8]

theorem addRm32Imm8 (dst : RM32) (imm : Byte) : Statement (.addRm32Imm8 dst imm) := by
  intro h rest
  simp [decode, encode, decodeHandler, bind, Except.bind, decodeGroup83, List.append_assoc, takeModRM_rm32 _ dst _ h]

theorem subRm32Imm8 (dst : RM32) (imm : Byte) : Statement (.subRm32Imm8 dst imm) := by
  intro h rest
  simp [decode, encode, decodeHandler, bind, Except.bind, decodeGroup83, List.append_assoc, takeModRM_rm32 _ dst _ h]

theorem movRm8R8 (dst : RM8) (src : Reg8) : Statement (.movRm8R8 dst src) := by
  intro h rest
  simp [decode, encode, decodeHandler, bind, Except.bind, takeModRM_rm8 _ dst _ h]

theorem movRm32R32 (dst : RM32) (src : Reg) : Statement (.movRm32R32 dst src) := by
  intro h rest
  simp [decode, encode, decodeHandler, bind, Except.bind, takeModRM_rm32 _ dst _ h]

theorem movR8Rm8 (dst : Reg8) (src : RM8) : Statement (.movR8Rm8 dst src) := by
  intro h rest
  simp [decode, encode, decodeHandler, bind, Except.bind, takeModRM_rm8 _ src _ h]

theorem movR32Rm32 (dst : Reg) (src : RM32) : Statement (.movR32Rm32 dst src) := by
  intro h rest
  simp [decode, encode, decodeHandler, bind, Except.bind, takeModRM_rm32 _ src _ h]

theorem movR8Imm8 (dst : Reg8) (imm : Byte) : Statement (.movR8Imm8 dst imm) := by
  intro _ rest
  simp [decode, encode, decodeHandler, bind, Except.bind]

theorem movR32Imm32 (dst : Reg) (imm : Word) : Statement (.movR32Imm32 dst imm) := by
  intro _ rest
  simp [decode, encode, decodeHandler, bind, Except.bind]

theorem ret : Statement (.ret) := by
  intro _ rest
  simp [decode, encode, decodeHandler]

theorem movRm32Imm32 (ext : BitVec 3) (dst : RM32) (imm : Word) : Statement (.movRm32Imm32 ext dst imm) := by
  intro h rest
  simp [decode, encode, decodeHandler, bind, Except.bind, List.append_assoc, takeModRM_rm32 _ dst _ h]

theorem leave : Statement (.leave) := by
  intro _ rest
  simp [decode, encode, decodeHandler]

theorem int (v : Byte) : Statement (.int v) := by
  intro _ rest
  simp [decode, encode, decodeHandler, bind, Except.bind]

theorem callRel32 (rel : Word) : Statement (.callRel32 rel) := by
  intro _ rest
  simp [decode, encode, decodeHandler, bind, Except.bind]

theorem jmpRel32 (rel : Word) : Statement (.jmpRel32 rel) := by
  intro _ rest
  simp [decode, encode, decodeHandler, bind, Except.bind]

theorem jmpRel8 (rel : Byte) : Statement (.jmpRel8 rel) := by
  intro _ rest
  simp [decode, encode, decodeHandler, bind, Except.bind, takeRel8]

theorem inAlDx : Statement (.inAlDx) := by
  intro _ rest
  simp [decode, encode, decodeHandler]

theorem outDxAl : Statement (.outDxAl) := by
  intro _ rest
  simp [decode, encode, decodeHandler]

theorem incRm32 (dst : RM32) : Statement (.incRm32 dst) := by
  intro h rest
  simp [decode, encode, decodeHandler, bind, Except.bind, decodeGroupFF, takeModRM_rm32 _ dst _ h]

end Sys2Proof.Laws.RoundTrip
end

