-- ==== Sys2Proof/Tests/Slice0.lean ====
section
/-! SUPPORT. The model's own tests: well-formedness, decoding, one step of each instruction, and for every obligation with
hypotheses a state that meets them. Expected results are the vectors of spec/95_test_vectors.md and the examples of the rules named
beside each test. -/

namespace Sys2Proof.Tests

open Sys2Proof Sys2Proof.Machine

/-! ## Helpers -/

/-- The reset state with tracing off, the bytes `bs` at 0x7C00. -/
def prog (bs : List Byte) : State := { State.reset with quiet := true }.withBytesAtEip bs

/-- The same with the bytes at another address. -/
def progAt (a : Word) (bs : List Byte) : State := { State.reset with quiet := true, eip := a }.withBytesAtEip bs

/-- A word in memory. -/
def withWord (s : State) (a : Nat) (v : Word) : State := s.setMemory (s.memory.setWord a v)

/-- A field of the state after an outcome, when it is a next state. -/
def after {α : Type} (o : Host.Outcome State Fault Refusal) (f : State → α) : Option α :=
  match o with
  | .next t => some (f t)
  | _ => none

/-- The outcome is a next state. -/
def completes (o : Host.Outcome State Fault Refusal) : Bool := (after o (fun _ => ())).isSome

theorem next_of_completes {o : Host.Outcome State Fault Refusal} (h : completes o = true) : ∃ t, o = .next t := by
  cases o with
  | next t => exact ⟨t, rfl⟩
  | fault f => cases h
  | refused r => cases h

/-- A property of the state after an outcome. -/
theorem next_with {α : Type} {o : Host.Outcome State Fault Refusal} {f : State → α} {v : α} (h : after o f = some v) :
    ∃ t, o = .next t ∧ f t = v := by
  cases o with
  | next t => exact ⟨t, rfl, by simpa [after] using h⟩
  | fault f => cases h
  | refused r => cases h

/-- What a halting step shows: the reason, EIP, ESP, the flags and the memory. -/
def haltView (t : State) : RunState × Word × Word × BitVec 16 × Memory := (t.runState, t.eip, t.reg .esp, t.eflags, t.memory)

/-- The same of the state before, with the reason the step is to report. -/
def haltOf (s : State) (r : HaltReason) : Option (RunState × Word × Word × BitVec 16 × Memory) :=
  some (.halted r, s.eip, s.reg .esp, s.eflags, s.memory)

/-! ## Well-formedness (R84, R85): an ill-formed term for each check -/

theorem test_illformed_base_esp : (Instr.addRm32R32 (.mem (.base .esp)) .eax).wellFormed = false := by decide

theorem test_illformed_base_ebp : (Instr.incRm32 (.mem (.base .ebp))).wellFormed = false := by decide

theorem test_illformed_disp8_esp : (Instr.movRm8R8 (.mem (.baseDisp8 .esp 4#8)) .al).wellFormed = false := by decide

theorem test_illformed_disp32_esp : (Instr.movR32Rm32 .eax (.mem (.baseDisp32 .esp 4#32))).wellFormed = false := by decide

theorem test_wellformed_register_esp : (Instr.subRm32Imm8 (.reg .esp) 0x10#8).wellFormed = true := by decide

/-! ## Decoding: every constructor, by bytes written out from the spec (95_test_vectors.md V2 to V8, 44_control_flow.md R211 to
R222) -/

theorem test_decode_arith :
    decode [0x01, 0xC8] = .ok (.addRm32R32 (.reg .eax) .ecx, []) ∧
    decode [0x3B, 0xCA] = .ok (.cmpR32Rm32 .ecx (.reg .edx), []) ∧
    decode [0x3C, 0x71] = .ok (.cmpAlImm8 0x71#8, []) ∧
    decode [0x3D, 0x0A, 0x00, 0x00, 0x00] = .ok (.cmpEaxImm32 10#32, []) ∧
    decode [0x47] = .ok (.incR32 .edi, []) ∧
    decode [0x83, 0x45, 0xFC, 0x01] = .ok (.addRm32Imm8 (.mem (.baseDisp8 .ebp 0xFC#8)) 1#8, []) ∧
    decode [0x83, 0xEC, 0x10] = .ok (.subRm32Imm8 (.reg .esp) 0x10#8, []) ∧
    decode [0xFF, 0x05, 0x00, 0x80, 0x00, 0x00] = .ok (.incRm32 (.mem (.abs 0x8000#32)), []) := by decide

theorem test_decode_mov :
    decode [0x88, 0x08] = .ok (.movRm8R8 (.mem (.base .eax)) .cl, []) ∧
    decode [0x89, 0xE5] = .ok (.movRm32R32 (.reg .ebp) .esp, []) ∧
    decode [0x8A, 0xE3] = .ok (.movR8Rm8 .ah (.reg .bl), []) ∧
    decode [0x8B, 0x45, 0xFC] = .ok (.movR32Rm32 .eax (.mem (.baseDisp8 .ebp 0xFC#8)), []) ∧
    decode [0xB7, 0xFF] = .ok (.movR8Imm8 .bh 0xFF#8, []) ∧
    decode [0xBC, 0x00, 0x80, 0x00, 0x00] = .ok (.movR32Imm32 .esp 0x8000#32, []) ∧
    decode [0xC7, 0x05, 0x00, 0x80, 0x00, 0x00, 0x78, 0x56, 0x34, 0x12] = .ok (.movRm32Imm32 0#3 (.mem (.abs 0x8000#32)) 0x12345678#32, []) ∧
    decode [0xC7, 0xF8, 0x01, 0x00, 0x00, 0x00] = .ok (.movRm32Imm32 7#3 (.reg .eax) 1#32, []) := by decide

theorem test_decode_stack :
    decode [0x54] = .ok (.pushR32 .esp, []) ∧
    decode [0x5C] = .ok (.popR32 .esp, []) ∧
    decode [0x68, 0x78, 0x56, 0x34, 0x12] = .ok (.pushImm32 0x12345678#32, []) ∧
    decode [0x6A, 0x80] = .ok (.pushImm8 0x80#8, []) ∧
    decode [0xC9] = .ok (.leave, []) := by decide

theorem test_decode_conditional :
    decode [0x70, 0x05] = .ok (.jo 0x05#8, []) ∧
    decode [0x71, 0x05] = .ok (.jno 0x05#8, []) ∧
    decode [0x72, 0x05] = .ok (.jc 0x05#8, []) ∧
    decode [0x73, 0x05] = .ok (.jnc 0x05#8, []) ∧
    decode [0x74, 0x05] = .ok (.jz 0x05#8, []) ∧
    decode [0x75, 0x05] = .ok (.jnz 0x05#8, []) ∧
    decode [0x78, 0x05] = .ok (.js 0x05#8, []) ∧
    decode [0x79, 0x05] = .ok (.jns 0x05#8, []) ∧
    decode [0x7C, 0x05] = .ok (.jl 0x05#8, []) ∧
    decode [0x7E, 0x05] = .ok (.jle 0x05#8, []) := by decide

theorem test_decode_transfer :
    decode [0xE9, 0xFB, 0x00, 0x00, 0x00] = .ok (.jmpRel32 0xFB#32, []) ∧
    decode [0xEB, 0x80] = .ok (.jmpRel8 0x80#8, []) ∧
    decode [0xE8, 0x05, 0x00, 0x00, 0x00] = .ok (.callRel32 5#32, []) ∧
    decode [0xC3] = .ok (.ret, []) := by decide

theorem test_decode_io :
    decode [0xCD, 0x10] = .ok (.int 0x10#8, []) ∧
    decode [0xEC] = .ok (.inAlDx, []) ∧
    decode [0xEE] = .ok (.outDxAl, []) := by decide

/-- The ModRM forms of 95_test_vectors.md V7, in `8B`. -/
theorem test_decode_modrm :
    decode [0x8B, 0xE5] = .ok (.movR32Rm32 .esp (.reg .ebp), []) ∧
    decode [0x8B, 0x1E] = .ok (.movR32Rm32 .ebx (.mem (.base .esi)), []) ∧
    decode [0x8B, 0x0D, 0x00, 0x80, 0x00, 0x00] = .ok (.movR32Rm32 .ecx (.mem (.abs 0x8000#32)), []) ∧
    decode [0x8B, 0x58, 0x80] = .ok (.movR32Rm32 .ebx (.mem (.baseDisp8 .eax 0x80#8)), []) ∧
    decode [0x8B, 0x85, 0xFC, 0xFF, 0xFF, 0xFF] = .ok (.movR32Rm32 .eax (.mem (.baseDisp32 .ebp 0xFFFFFFFC#32)), []) := by decide

/-- 95_test_vectors.md V9: what is no instruction, and which reason comes first. -/
theorem test_decode_errors :
    decode [0xF4] = .error (.unmappedOpcode 0xF4#8) ∧
    decode [0x0F, 0x84, 0x00] = .error (.unmappedOpcode 0x0F#8) ∧
    decode [0x8B, 0x04, 0x24] = .error (.sibForm 0x04#8) ∧
    decode [0x83, 0xF8, 0x05] = .error (.unmappedGroup 0x83#8 7#3) ∧
    decode [0xFF, 0xD0] = .error (.unmappedGroup 0xFF#8 2#3) ∧
    decode [0x83, 0x3C, 0x24, 0x00] = .error (.sibForm 0x3C#8) ∧
    decode [0xB8, 0x01, 0x02] = .error (.outOfBytes 1) := by decide

/-- A table word: the second byte is bits 15 to 8. -/
theorem test_decode_table_word :
    decodeTableWord 16 0xC801 = some (.addRm32R32 (.reg .eax) .ecx) ∧ decodeTableWord 8 0xF4 = none ∧
    decodeTableWord 8 0xE9 = some (.jmpRel32 0#32) := by decide

/-! ## One step of each instruction -/

/-- V2. -/
theorem test_add_r32 :
    after (step (((prog [0x01, 0xC0]).setReg .eax 0x80000001#32).setEflags 0x00C0#16)) (fun t => (t.reg .eax, t.eflags, t.eip)) =
      some (2#32, 0x00C0#16, 0x7C02#32) := by decide

/-- V2. -/
theorem test_add_mem :
    after (step (withWord (((prog [0x01, 0x4D, 0xFC]).setReg .ebp 0x7BF8#32).setReg .ecx 2#32) 0x7BF4 5#32)) (fun t => (t.memory.word 0x7BF4, t.eip)) =
      some (7#32, 0x7C03#32) := by decide

/-- V2: the operand order. -/
theorem test_cmp_r32_rm32 :
    after (step (((prog [0x3B, 0xCA]).setReg .ecx 1#32).setReg .edx 5#32)) (fun t => (t.reg .ecx, t.reg .edx, t.eflags, t.eip)) =
      some (1#32, 5#32, 0x0001#16, 0x7C02#32) := by decide

/-- V2. -/
theorem test_cmp_r32_mem :
    after (step (withWord (((prog [0x3B, 0x45, 0xFC]).setReg .eax 3#32).setReg .ebp 0x7BF8#32) 0x7BF4 2#32)) (fun t => (t.eflags, t.eip)) =
      some (0x0080#16, 0x7C03#32) := by decide

/-- V2: zero-extended. -/
theorem test_cmp_al :
    after (step ((prog [0x3C, 0xFF]).setReg .eax 0#32)) (fun t => (t.eflags, t.eip)) =
      some (0x0001#16, 0x7C02#32) := by decide

/-- V2: not the flags of an 8-bit compare. -/
theorem test_cmp_al_not_8bit :
    after (step ((prog [0x3C, 0x01]).setReg .eax 0x80#32)) (fun t => t.eflags) =
      some 0x0080#16 := by decide

/-- V2. -/
theorem test_cmp_eax :
    after (step ((prog [0x3D, 0x01, 0x00, 0x00, 0x00]).setReg .eax 0x80000000#32)) (fun t => (t.reg .eax, t.eflags, t.eip)) =
      some (0x80000000#32, 0x0880#16, 0x7C05#32) := by decide

/-- V2. -/
theorem test_cmp_eax_overflow :
    after (step ((prog [0x3D, 0xFF, 0xFF, 0xFF, 0xFF]).setReg .eax 0x7FFFFFFF#32)) (fun t => t.eflags) =
      some 0x0801#16 := by decide

/-- V2. -/
theorem test_inc_r32 :
    after (step (((prog [0x40]).setReg .eax 0xFFFFFFFF#32).setEflags 0x0001#16)) (fun t => (t.reg .eax, t.eflags, t.eip)) =
      some (0#32, 0x0001#16, 0x7C01#32) := by decide

/-- V6: the old ESP. -/
theorem test_push_esp :
    after (step (prog [0x54])) (fun t => (t.memory.word 0x7BFC, t.reg .esp, t.eip)) =
      some (0x7C00#32, 0x7BFC#32, 0x7C01#32) := by decide

/-- V6: the push overwrites its own byte. -/
theorem test_push_over_itself :
    after (step (((prog [0x50]).setReg .eax 0x11223344#32).setReg .esp 0x7C03#32)) (fun t => (t.memory.word 0x7BFF, t.reg .esp, t.eip)) =
      some (0x11223344#32, 0x7BFF#32, 0x7C01#32) := by decide

/-- V6. -/
theorem test_pop_r32 :
    after (step (withWord ((prog [0x58]).setReg .esp 0x7BFC#32) 0x7BFC 0x2A#32)) (fun t => (t.reg .eax, t.reg .esp, t.eip)) =
      some (0x2A#32, 0x7C00#32, 0x7C01#32) := by decide

/-- V6: the popped value. -/
theorem test_pop_esp :
    after (step (withWord ((prog [0x5C]).setReg .esp 0x7BFC#32) 0x7BFC 0x9000#32)) (fun t => t.reg .esp) =
      some 0x9000#32 := by decide

/-- V6. -/
theorem test_push_imm32 :
    after (step (prog [0x68, 0x78, 0x56, 0x34, 0x12])) (fun t => (t.memory.byte 0x7BFC, t.memory.byte 0x7BFF, t.reg .esp, t.eip)) =
      some (0x78#8, 0x12#8, 0x7BFC#32, 0x7C05#32) := by decide

/-- V6: sign-extended. -/
theorem test_push_imm8 :
    after (step (prog [0x6A, 0x80])) (fun t => (t.memory.word 0x7BFC, t.reg .esp, t.eip)) =
      some (0xFFFFFF80#32, 0x7BFC#32, 0x7C02#32) := by decide

/-- R211. -/
theorem test_jo_taken :
    after (step ((progAt 0x7C10#32 [0x70, 0x05]).setEflags 0x0880#16)) (fun t => (t.eip, t.eflags)) =
      some (0x7C17#32, 0x0880#16) := by decide

/-- R211. -/
theorem test_jo_not_taken :
    after (step ((progAt 0x7C10#32 [0x70, 0x05]).setEflags 0x0080#16)) (fun t => t.eip) =
      some 0x7C12#32 := by decide

/-- R212. -/
theorem test_jno_taken :
    after (step ((progAt 0x7C10#32 [0x71, 0x05]).setEflags 0x0080#16)) (fun t => (t.eip, t.eflags)) =
      some (0x7C17#32, 0x0080#16) := by decide

/-- R212. -/
theorem test_jno_not_taken :
    after (step ((progAt 0x7C10#32 [0x71, 0x05]).setEflags 0x0880#16)) (fun t => t.eip) =
      some 0x7C12#32 := by decide

/-- R213. -/
theorem test_jc_taken :
    after (step ((progAt 0x7C10#32 [0x72, 0xF0]).setEflags 0x0001#16)) (fun t => (t.eip, t.eflags)) =
      some (0x7C02#32, 0x0001#16) := by decide

/-- R213. -/
theorem test_jc_not_taken :
    after (step ((progAt 0x7C10#32 [0x72, 0xF0]).setEflags 0x00C0#16)) (fun t => t.eip) =
      some 0x7C12#32 := by decide

/-- R214. -/
theorem test_jnc_taken :
    after (step ((progAt 0x7C10#32 [0x73, 0x02]).setEflags 0x00C0#16)) (fun t => (t.eip, t.eflags)) =
      some (0x7C14#32, 0x00C0#16) := by decide

/-- R214. -/
theorem test_jnc_not_taken :
    after (step ((progAt 0x7C10#32 [0x73, 0x02]).setEflags 0x0001#16)) (fun t => t.eip) =
      some 0x7C12#32 := by decide

/-- R215. -/
theorem test_jz_taken :
    after (step ((progAt 0x7C10#32 [0x74, 0x05]).setEflags 0x00C0#16)) (fun t => (t.eip, t.eflags)) =
      some (0x7C17#32, 0x00C0#16) := by decide

/-- R215. -/
theorem test_jz_not_taken :
    after (step ((progAt 0x7C10#32 [0x74, 0x05]).setEflags 0x0001#16)) (fun t => t.eip) =
      some 0x7C12#32 := by decide

/-- R216. -/
theorem test_jnz_taken :
    after (step ((progAt 0x7C10#32 [0x75, 0x05]).setEflags 0x0001#16)) (fun t => (t.eip, t.eflags)) =
      some (0x7C17#32, 0x0001#16) := by decide

/-- R216. -/
theorem test_jnz_not_taken :
    after (step ((progAt 0x7C10#32 [0x75, 0x05]).setEflags 0x00C0#16)) (fun t => t.eip) =
      some 0x7C12#32 := by decide

/-- R217. -/
theorem test_js_taken :
    after (step ((progAt 0x7C10#32 [0x78, 0x05]).setEflags 0x0080#16)) (fun t => (t.eip, t.eflags)) =
      some (0x7C17#32, 0x0080#16) := by decide

/-- R217. -/
theorem test_js_not_taken :
    after (step ((progAt 0x7C10#32 [0x78, 0x05]).setEflags 0x0001#16)) (fun t => t.eip) =
      some 0x7C12#32 := by decide

/-- R218. -/
theorem test_jns_taken :
    after (step ((progAt 0x7C10#32 [0x79, 0x05]).setEflags 0x0001#16)) (fun t => (t.eip, t.eflags)) =
      some (0x7C17#32, 0x0001#16) := by decide

/-- R218. -/
theorem test_jns_not_taken :
    after (step ((progAt 0x7C10#32 [0x79, 0x05]).setEflags 0x0080#16)) (fun t => t.eip) =
      some 0x7C12#32 := by decide

/-- R219. -/
theorem test_jl_taken :
    after (step ((progAt 0x7C10#32 [0x7C, 0x05]).setEflags 0x0080#16)) (fun t => (t.eip, t.eflags)) =
      some (0x7C17#32, 0x0080#16) := by decide

/-- R219. -/
theorem test_jl_not_taken :
    after (step ((progAt 0x7C10#32 [0x7C, 0x05]).setEflags 0x0880#16)) (fun t => t.eip) =
      some 0x7C12#32 := by decide

/-- R220. -/
theorem test_jle_taken :
    after (step ((progAt 0x7C10#32 [0x7E, 0x05]).setEflags 0x0801#16)) (fun t => (t.eip, t.eflags)) =
      some (0x7C17#32, 0x0801#16) := by decide

/-- R220. -/
theorem test_jle_not_taken :
    after (step ((progAt 0x7C10#32 [0x7E, 0x05]).setEflags 0x0001#16)) (fun t => t.eip) =
      some 0x7C12#32 := by decide

/-- V2: sign-extended, no flags. -/
theorem test_add_imm8 :
    after (step (((prog [0x83, 0xC0, 0xFF]).setReg .eax 5#32).setEflags 0x00C0#16)) (fun t => (t.reg .eax, t.eflags, t.eip)) =
      some (4#32, 0x00C0#16, 0x7C03#32) := by decide

/-- V2. -/
theorem test_add_mem_imm8 :
    after (step (withWord ((prog [0x83, 0x45, 0xFC, 0x01]).setReg .ebp 0x7BF8#32) 0x7BF4 0xFFFFFFFF#32)) (fun t => (t.memory.word 0x7BF4, t.eip)) =
      some (0#32, 0x7C04#32) := by decide

/-- V2. -/
theorem test_sub_imm8 :
    after (step ((prog [0x83, 0xE8, 0xFF]).setReg .eax 5#32)) (fun t => (t.reg .eax, t.eflags, t.eip)) =
      some (6#32, 0x0081#16, 0x7C03#32) := by decide

/-- V2. -/
theorem test_sub_mem_imm8 :
    after (step (withWord ((prog [0x83, 0x6D, 0xFC, 0x01]).setReg .ebp 0x7BF8#32) 0x7BF4 1#32)) (fun t => (t.memory.word 0x7BF4, t.eflags, t.eip)) =
      some (0#32, 0x00C0#16, 0x7C04#32) := by decide

/-- V5: AH from AL. -/
theorem test_mov_rm8_r8 :
    after (step ((prog [0x88, 0xC4]).setReg .eax 0xAB12#32)) (fun t => (t.reg .eax, t.eip)) =
      some (0x1212#32, 0x7C02#32) := by decide

/-- V5: one byte. -/
theorem test_mov_mem8_r8 :
    after (step (((prog [0x88, 0x4D, 0xFF]).setReg .ebp 0x7BF8#32).setReg .ecx 0x55EE#32)) (fun t => (t.memory.byte 0x7BF7, t.memory.byte 0x7BF8, t.eip)) =
      some (0xEE#8, 0#8, 0x7C03#32) := by decide

/-- V5. -/
theorem test_mov_rm32_r32 :
    after (step ((prog [0x89, 0xE5]).setReg .esp 0x7BF8#32)) (fun t => (t.reg .ebp, t.reg .esp, t.eip)) =
      some (0x7BF8#32, 0x7BF8#32, 0x7C02#32) := by decide

/-- V5. -/
theorem test_mov_mem32_r32 :
    after (step ((prog [0x89, 0x0D, 0x00, 0x90, 0x00, 0x00]).setReg .ecx 0xCAFEBABE#32)) (fun t => (t.memory.byte 0x9000, t.memory.byte 0x9003, t.eip)) =
      some (0xBE#8, 0xCA#8, 0x7C06#32) := by decide

/-- V5: AH from BL. -/
theorem test_mov_r8_rm8 :
    after (step ((prog [0x8A, 0xE3]).setReg .ebx 0x41#32)) (fun t => (t.reg .eax, t.eip)) =
      some (0x4100#32, 0x7C02#32) := by decide

/-- V5: its own first byte. -/
theorem test_mov_r8_mem8 :
    after (step (((prog [0x8A, 0x03]).setReg .ebx 0x7C00#32).setReg .eax 0xFFFFFFFF#32)) (fun t => (t.reg .eax, t.eip)) =
      some (0xFFFFFF8A#32, 0x7C02#32) := by decide

/-- V5: `mod == 3`, `rm == 4` is ESP. -/
theorem test_mov_r32_rm32 :
    after (step ((prog [0x8B, 0xEC]).setReg .esp 0x7BF0#32)) (fun t => (t.reg .ebp, t.eip)) =
      some (0x7BF0#32, 0x7C02#32) := by decide

/-- V5. -/
theorem test_mov_r32_mem32 :
    after (step (withWord (prog [0x8B, 0x05, 0x78, 0x56, 0x00, 0x00]) 0x5678 0xDEADBEEF#32)) (fun t => (t.reg .eax, t.eip)) =
      some (0xDEADBEEF#32, 0x7C06#32) := by decide

/-- V5. -/
theorem test_mov_r8_imm8 :
    after (step ((prog [0xB4, 0xCD]).setReg .eax 0x123456AB#32)) (fun t => (t.reg .eax, t.eip)) =
      some (0x1234CDAB#32, 0x7C02#32) := by decide

/-- V5. -/
theorem test_mov_r32_imm32 :
    after (step (prog [0xBC, 0x00, 0x80, 0x00, 0x00])) (fun t => (t.reg .esp, t.eip)) =
      some (0x8000#32, 0x7C05#32) := by decide

/-- V4. -/
theorem test_ret :
    after (step (withWord ((prog [0xC3]).setReg .esp 0x7BFC#32) 0x7BFC 0x7C05#32)) (fun t => (t.eip, t.reg .esp)) =
      some (0x7C05#32, 0x7C00#32) := by decide

/-- V4: the sentinel. -/
theorem test_ret_to_zero :
    after (step ((prog [0xC3]).setReg .esp 0x8000#32)) (fun t => (t.eip, t.reg .esp, t.runState)) =
      some (0#32, 0x8004#32, .halted .normalEnd) := by decide

/-- V5. -/
theorem test_mov_mem32_imm32 :
    after (step ((prog [0xC7, 0x45, 0xFC, 0x07, 0x00, 0x00, 0x00]).setReg .ebp 0x7BF8#32)) (fun t => (t.memory.word 0x7BF4, t.eip)) =
      some (7#32, 0x7C07#32) := by decide

/-- V5. -/
theorem test_mov_rm32_imm32_ignores_reg :
    after (step (prog [0xC7, 0xF8, 0x01, 0x00, 0x00, 0x00])) (fun t => (t.reg .eax, t.eip)) =
      some (1#32, 0x7C06#32) := by decide

/-- V6. -/
theorem test_leave :
    after (step (withWord (((prog [0xC9]).setReg .ebp 0x7BF8#32).setReg .esp 0x7BE8#32) 0x7BF8 0xAABBCCDD#32)) (fun t => (t.reg .esp, t.reg .ebp, t.eip)) =
      some (0x7BFC#32, 0xAABBCCDD#32, 0x7C01#32) := by decide

/-- V8. -/
theorem test_int_teletype :
    after (step (((prog [0xCD, 0x10]).setReg .eax 0x0E41#32).setReg .ebx 0xFC#32)) (fun t => (t.events, t.reg .eax, t.reg .esp, t.eip)) =
      some ([.teletype 0x41#8 0xC#4], 0x0E41#32, 0x7C00#32, 0x7C02#32) := by decide

/-- V8. -/
theorem test_int_unknown_vector :
    after (step (prog [0xCD, 0x21])) (fun t => (t.events, t.eip)) =
      some ([.reportUnknownInterrupt 0x21#8], 0x7C02#32) := by decide

/-- V4. -/
theorem test_call :
    after (step (prog [0xE8, 0x05, 0x00, 0x00, 0x00])) (fun t => (t.memory.word 0x7BFC, t.reg .esp, t.eip)) =
      some (0x7C05#32, 0x7BFC#32, 0x7C0A#32) := by decide

/-- V4: the return address is pushed first. -/
theorem test_call_to_zero :
    after (step (prog [0xE8, 0xFB, 0x83, 0xFF, 0xFF])) (fun t => (t.memory.word 0x7BFC, t.eip, t.runState)) =
      some (0x7C05#32, 0#32, .halted .normalEnd) := by decide

/-- V4. -/
theorem test_jmp_rel32 :
    after (step (prog [0xE9, 0xFB, 0x00, 0x00, 0x00])) (fun t => (t.eip, t.runState)) =
      some (0x7D00#32, .running) := by decide

/-- V4: the halt report carries EIP 0. -/
theorem test_jmp_rel32_to_zero :
    after (step (progAt 0x7C16#32 [0xE9, 0xE5, 0x83, 0xFF, 0xFF])) (fun t => (t.eip, t.runState, t.events)) =
      some (0#32, .halted .normalEnd, [.haltReport .normalEnd (Regs.reset 0x7C00#32) 0#32]) := by decide

/-- V4. -/
theorem test_jmp_rel8 :
    after (step (progAt 0x7C10#32 [0xEB, 0x80])) (fun t => t.eip) =
      some 0x7B92#32 := by decide

/-- P4: two lines whose first characters are 0x61 and 0x71. -/
def twoLines (s : State) : State := { s with input := { lines := [[0x61, 0x62], [0x71]], after := .ended } }

/-- V8, P4: one line is consumed. -/
theorem test_in :
    after (step ((twoLines ((prog [0xEC]).setReg .edx 0xABCD03F8#32)).setReg .eax 0x12345678#32)) (fun t => (t.reg .eax, t.input.lines, t.eip)) =
      some (0x12345661#32, [[0x71]], 0x7C01#32) := by decide

/-- V8: no line is consumed. -/
theorem test_in_unknown_port :
    after (step (twoLines ((prog [0xEC]).setReg .edx 0x60#32))) (fun t => (t.runState, t.input.lines.length, t.eip)) =
      some (.halted (.unknownPortRead 0x60#16), 2, 0x7C00#32) := by decide

/-- V8: the port is masked. -/
theorem test_out :
    after (step (((prog [0xEE]).setReg .edx 0xFFFF03F8#32).setReg .eax 0xFF0A#32)) (fun t => (t.events, t.eip)) =
      some ([.serialOut 0x0A#8], 0x7C01#32) := by decide

/-- V8. -/
theorem test_out_unknown_port :
    after (step (((prog [0xEE]).setReg .edx 0x80#32).setReg .eax 0x41#32)) (fun t => (t.events, t.eip)) =
      some ([], 0x7C01#32) := by decide

/-- V2. -/
theorem test_inc_rm32 :
    after (step (((prog [0xFF, 0xC0]).setReg .eax 0xFFFFFFFF#32).setEflags 0x0081#16)) (fun t => (t.reg .eax, t.eflags, t.eip)) =
      some (0#32, 0x0081#16, 0x7C02#32) := by decide

/-- V2. -/
theorem test_inc_mem :
    after (step (withWord (prog [0xFF, 0x05, 0x00, 0x80, 0x00, 0x00]) 0x8000 0xFF#32)) (fun t => (t.memory.word 0x8000, t.eip)) =
      some (0x100#32, 0x7C06#32) := by decide

/-! ## Halting steps (95_test_vectors.md V9): the reason, and nothing else changed -/

/-- V9. -/
theorem test_halt_unmapped :
    after (step (prog [0xF4])) haltView =
      haltOf (prog [0xF4]) (.unimplementedOpcode 0xF4#8) := by decide

/-- V9. -/
theorem test_halt_sib_before_group :
    after (step (prog [0x83, 0x3C, 0x24, 0x00])) haltView =
      haltOf (prog [0x83, 0x3C, 0x24, 0x00]) (.unimplementedAddressingForm 0x3C#8) := by decide

/-- V9. -/
theorem test_halt_group :
    after (step (prog [0xFF, 0x30])) haltView =
      haltOf (prog [0xFF, 0x30]) (.unimplementedGroupExtension 0xFF#8 6#3) := by decide

/-- V9: ESP - 4 wraps. -/
theorem test_halt_push_wraps :
    after (step ((prog [0x50]).setReg .esp 2#32)) haltView =
      haltOf ((prog [0x50]).setReg .esp 2#32) (.outOfBounds 0xFFFFFFFE) := by decide

/-- V9. -/
theorem test_halt_pop_straddles :
    after (step ((prog [0x58]).setReg .esp 0xFFFFE#32)) haltView =
      haltOf ((prog [0x58]).setReg .esp 0xFFFFE#32) (.outOfBounds 0xFFFFE) := by decide

/-- V9. -/
theorem test_halt_load_beyond :
    after (step (prog [0x8B, 0x05, 0xFD, 0xFF, 0x0F, 0x00])) haltView =
      haltOf (prog [0x8B, 0x05, 0xFD, 0xFF, 0x0F, 0x00]) (.outOfBounds 0xFFFFD) := by decide

/-- V9: the immediate does not fit. -/
theorem test_halt_fetch_straddles :
    after (step (progAt 0xFFFFD#32 [0xB8, 0x01, 0x02])) haltView =
      haltOf (progAt 0xFFFFD#32 [0xB8, 0x01, 0x02]) (.outOfBounds 0xFFFFE) := by decide

/-- V4: EIP is at MEM_SIZE or beyond. -/
theorem test_halt_fetch_beyond :
    after (step (progAt 0x107C00#32 [])) haltView =
      haltOf (progAt 0x107C00#32 []) (.outOfBounds 0x107C00) := by decide

/-- V9: the last legal dword. -/
theorem test_last_dword :
    after (step (prog [0x8B, 0x05, 0xFC, 0xFF, 0x0F, 0x00])) (fun t => (t.runState, t.reg .eax, t.eip)) =
      some (.running, 0#32, 0x7C06#32) := by decide

/-- R120: with QUIET false the opcode byte is traced, then the unmapped opcode is reported. -/
theorem test_trace_then_report :
    after (step { prog [0xF4] with quiet := false }) (fun t => t.events) =
      some [.trace 0x7C00#32 0xF4#8, .haltReport (.unimplementedOpcode 0xF4#8) (Regs.reset 0x7C00#32) 0x7C00#32] := by decide

/-- R123: no step is taken from a halted state. -/
theorem test_halted_stays :
    after (step ((prog [0x40]).halt .normalEnd)) id = some ((prog [0x40]).halt .normalEnd) := by decide

/-- R244, R274: an input source that never answers. -/
theorem test_in_stuck :
    completes (step { (prog [0xEC]).setReg .edx 0x3F8#32 with input := { lines := [], after := .silent } }) = false := by decide

/-- The host's placement of a table word. -/
theorem test_with_fetch_word :
    after (step (State.reset.withFetchWord 16 0xC801)) (fun t => (t.reg .eax, t.eip)) = some (0#32, 0x7C02#32) := by decide

/-! ## Witnesses: for every obligation with hypotheses, states and operands that meet all of them

Each clause has its own case, at a boundary value of its range. -/

/-- A 512-byte image with a nonzero first and last byte. -/
def edgeImage : Vector Byte 512 := ((Vector.replicate 512 0#8).set 0 0xFF#8).set 511 0xEE#8

/-- The least memory the image fits in. -/
def leastMemory : State := { State.reset with quiet := true, memory := { size := 0x7E00, cells := [] } }

theorem witness_BootLoadsTheImageVerbatim :
    0x7E00 ≤ 0x7E00 ∧ (0 < 512 ∧ 511 < 512) ∧ (0x7BFF < 0x7C00 ∨ 0x7E00 ≤ 0x7BFF) ∧ (0x7E00 < 0x7C00 ∨ 0x7E00 ≤ 0x7E00) ∧
    (State.boot 0x7E00 0#32 edgeImage true { lines := [], after := .ended }).eip = 0x7C00#32 := by decide

theorem witness_StepKeepsTheMachineInvariant :
    ∃ t, MachineInv (prog [0x6A, 0x2A]) ∧ step (prog [0x6A, 0x2A]) = .next t := by
  obtain ⟨t, h⟩ := next_of_completes (o := step (prog [0x6A, 0x2A])) (by decide)
  exact ⟨t, ⟨by decide, by decide, by decide, by decide⟩, h⟩

theorem witness_StepKeepsTheReachableFlagWords :
    ∃ t, ((prog [0x3C, 0x71]).setEflags 0x0801#16).eflags ∈ reachableFlagWords ∧
      step ((prog [0x3C, 0x71]).setEflags 0x0801#16) = .next t := by
  obtain ⟨t, h⟩ := next_of_completes (o := step ((prog [0x3C, 0x71]).setEflags 0x0801#16)) (by decide)
  exact ⟨t, by decide, h⟩

/-- The least and the greatest memory. -/
theorem witness_EveryReachableStateMeetsTheInvariants :
    Reachable (State.boot 0x7E00 0#32 edgeImage true { lines := [], after := .ended }) ∧
    Reachable (State.boot (2 ^ 32) 0#32 edgeImage false { lines := [], after := .silent }) :=
  ⟨.boot _ _ _ _ _ (by decide) (by decide), .boot _ _ _ _ _ (by decide) (by decide)⟩

/-- The longest instruction. -/
def longest : Instr := .movRm32Imm32 7#3 (.mem (.baseDisp32 .edi 0x80000000#32)) 0xFFFFFFFF#32

theorem witness_DecodeOfEncodeIsTheInstruction : longest.wellFormed = true := by decide

theorem witness_DecodedBytesAreTheEncoding : decode [0x01, 0xC8, 0xF4] = .ok (.addRm32R32 (.reg .eax) .ecx, [0xF4#8]) := by decide

theorem witness_NoProperPartOfAnInstructionDecodes :
    longest.wellFormed = true ∧ 0 < (encode longest).length ∧ 9 < (encode longest).length ∧ ¬ 10 < (encode longest).length := by
  decide

/-- The first and the last byte of each field: opcode, ModRM byte, displacement, immediate; and a field straight after the opcode
(R81, R84, R124). -/
theorem test_fieldOffset :
    [0, 1, 2, 5, 6, 9].map (fieldOffset longest) = [0, 1, 2, 2, 6, 6] ∧
    [0, 1, 4].map (fieldOffset (.callRel32 0#32)) = [0, 1, 1] := by decide

theorem bytesAt_of {m : Memory} {a : Nat} {bs : List Byte} (h : a + bs.length ≤ m.size)
    (hb : (List.range bs.length).all (fun k => m.byte (a + k) == (bs[k]?).getD 0#8) = true) : BytesAt m a bs := by
  refine ⟨h, fun k hk => ?_⟩
  have := List.all_eq_true.mp hb k (List.mem_range.mpr hk)
  simpa [hk] using this

theorem witness_StepIsExecOfTheDecodedInstruction :
    (prog [0x01, 0xC8]).runState = .running ∧
    decode (prog [0x01, 0xC8]).instrBytes = .ok (.addRm32R32 (.reg .eax) .ecx, List.replicate 8 0#8) := by decide

theorem witness_StepRunsTheInstructionAtEip :
    longest.wellFormed = true ∧ RunsBytes (prog (encode longest)) (encode longest) ∧ (prog (encode longest)).quiet = true ∧
    ({ prog (encode longest) with quiet := false } : State).quiet = false :=
  ⟨by decide, ⟨rfl, bytesAt_of (by decide) (by decide)⟩, rfl, rfl⟩

/-- The instruction ends with the last byte of memory. -/
theorem witness_StoredInstructionIsFetchedNext :
    longest.wellFormed = true ∧ leastMemory.memory.wf = true ∧
    (leastMemory.setEip 0x7DF6#32).eip.toNat + (encode longest).length = leastMemory.memory.size := by decide

theorem witness_HaltedIsAbsorbing :
    ((prog [0x40]).halt (.unknownPortRead 0x60#16)).runState = .halted (.unknownPortRead 0x60#16) := by decide

/-- Both clauses: a jump to 0 and an instruction that goes on. -/
theorem witness_CompletedInstructionAtZeroEndsTheRun :
    (∃ (s : State) (i : Instr) (t : State), s.runState = .running ∧ s.fetched = .ok i ∧ exec i s.traced = .next t ∧ t.runState = .running ∧ t.eip = 0#32) ∧
    (∃ (s : State) (i : Instr) (t : State), s.runState = .running ∧ s.fetched = .ok i ∧ exec i s.traced = .next t ∧ t.runState = .running ∧ t.eip ≠ 0#32) := by
  refine ⟨?_, ?_⟩
  · obtain ⟨t, h, e⟩ := next_with (o := exec (.jmpRel32 0xFFFF83E5#32) (progAt 0x7C16#32 [0xE9, 0xE5, 0x83, 0xFF, 0xFF]).traced)
      (f := fun t => (t.runState, t.eip)) (v := (.running, 0#32)) (by decide)
    exact ⟨progAt 0x7C16#32 [0xE9, 0xE5, 0x83, 0xFF, 0xFF], .jmpRel32 0xFFFF83E5#32, t, rfl, by decide, h,
      congrArg Prod.fst e, congrArg Prod.snd e⟩
  · obtain ⟨t, h, e⟩ := next_with (o := exec (.incR32 .eax) (prog [0x40]).traced)
      (f := fun t => (t.runState, t.eip)) (v := (.running, 0x7C01#32)) (by decide)
    have e2 : t.eip = 0x7C01#32 := congrArg Prod.snd e
    exact ⟨prog [0x40], .incR32 .eax, t, rfl, by decide, h, congrArg Prod.fst e, by rw [e2]; decide⟩

theorem witness_NoStepLeavesARunningMachineAtZero :
    ∃ s t, step s = .next t ∧ t.runState = .running := by
  obtain ⟨t, h, e⟩ := next_with (o := step (prog [0x40])) (f := fun t => t.runState) (v := .running) (by decide)
  exact ⟨_, t, h, e⟩

theorem witness_FailingHaltsChangeNothing :
    ∃ (s t : State) (r : HaltReason), s.runState = .running ∧ step s = .next t ∧ t.runState = .halted r ∧ r ≠ .normalEnd := by
  obtain ⟨t, h, e⟩ := next_with (o := step (prog [0xF4])) (f := fun t => t.runState)
    (v := .halted (.unimplementedOpcode 0xF4#8)) (by decide)
  exact ⟨_, t, _, rfl, h, e, by decide⟩

/-- The state of the second alternative. -/
theorem witness_StepCompletesUnlessInputNeverAnswers :
    ∃ s : State, s.runState = .running ∧ s.fetched = .ok .inAlDx ∧ s.port = 0x03F8#16 ∧ s.input.lines = [] ∧ s.input.after = .silent :=
  ⟨{ (prog [0xEC]).setReg .edx 0x3F8#32 with input := { lines := [], after := .silent } }, by decide⟩

theorem witness_NoStepReportsAnInvalidRegisterIndex :
    ∃ t, (prog [0xBF, 0xFF, 0xFF, 0xFF, 0xFF]).runState = .running ∧ step (prog [0xBF, 0xFF, 0xFF, 0xFF, 0xFF]) = .next t := by
  obtain ⟨t, h⟩ := next_of_completes (o := step (prog [0xBF, 0xFF, 0xFF, 0xFF, 0xFF])) (by decide)
  exact ⟨t, rfl, h⟩

/-- The lowest unmapped byte and the highest. -/
theorem witness_UnmappedLeadingByteHalts :
    (RunsBytes (prog [0x00]) [0x00#8] ∧ 0x00#8 ∉ mappedLeadingBytes) ∧
    (RunsBytes (prog [0xFE]) [0xFE#8] ∧ 0xFE#8 ∉ mappedLeadingBytes) :=
  ⟨⟨⟨rfl, bytesAt_of (by decide) (by decide)⟩, by decide⟩, ⟨rfl, bytesAt_of (by decide) (by decide)⟩, by decide⟩

theorem witness_SibFormHalts :
    (0x01#8 ∈ modRMLeadingBytes ∧ 0x04#8 &&& 0xC7#8 ∈ [0x04#8, 0x44#8, 0x84#8] ∧ RunsBytes (prog [0x01, 0x04]) [0x01#8, 0x04#8]) ∧
    (0xFF#8 ∈ modRMLeadingBytes ∧ 0xBC#8 &&& 0xC7#8 ∈ [0x04#8, 0x44#8, 0x84#8] ∧ RunsBytes (prog [0xFF, 0xBC]) [0xFF#8, 0xBC#8]) :=
  ⟨⟨by decide, by decide, rfl, bytesAt_of (by decide) (by decide)⟩,
   by decide, by decide, rfl, bytesAt_of (by decide) (by decide)⟩

/-- Both groups, with the least and the greatest selector they do not have. -/
theorem witness_UnmappedGroupSelectorHalts :
    (RM32.reg .edi).wellFormed = true ∧
    (RunsBytes (prog [0x83, 0xCF]) (0x83#8 :: (RM32.reg .edi).encode 1#3) ∧ 1#3 ∉ [0#3, 5#3]) ∧
    (RunsBytes (prog [0x83, 0xFF]) (0x83#8 :: (RM32.reg .edi).encode 7#3) ∧ 7#3 ∉ [0#3, 5#3]) ∧
    (RunsBytes (prog [0xFF, 0xCF]) (0xFF#8 :: (RM32.reg .edi).encode 1#3) ∧ 1#3 ≠ 0#3) ∧
    (RunsBytes (prog [0xFF, 0xFF]) (0xFF#8 :: (RM32.reg .edi).encode 7#3) ∧ 7#3 ≠ 0#3) :=
  ⟨by decide, ⟨⟨rfl, bytesAt_of (by decide) (by decide)⟩, by decide⟩, ⟨⟨rfl, bytesAt_of (by decide) (by decide)⟩, by decide⟩,
   ⟨⟨rfl, bytesAt_of (by decide) (by decide)⟩, by decide⟩, ⟨rfl, bytesAt_of (by decide) (by decide)⟩, by decide⟩

/-- EIP equal to MEM_SIZE; memory ending after the first and before the last byte of the instruction; and memory ending inside the
ModRM group of an opcode whose selector names no operation. -/
theorem witness_FetchBeyondMemoryHalts :
    (∃ s : State, s.runState = .running ∧ s.memory.size = s.eip.toNat) ∧
    (longest.wellFormed = true ∧
      (1 < (encode longest).length ∧ RunsBytes (progAt 0xFFFFF#32 [0xC7]) ((encode longest).take 1) ∧
        (progAt 0xFFFFF#32 [0xC7]).eip.toNat + 1 = (progAt 0xFFFFF#32 [0xC7]).memory.size) ∧
      (9 < (encode longest).length ∧ RunsBytes (progAt 0xFFFF7#32 (encode longest)) ((encode longest).take 9) ∧
        (progAt 0xFFFF7#32 (encode longest)).eip.toNat + 9 = (progAt 0xFFFF7#32 (encode longest)).memory.size)) ∧
    (0x83#8 ∈ modRMLeadingBytes ∧ (RM32.mem (.abs 0#32)).wellFormed = true ∧ 5 < 1 + (RM32.mem (.abs 0#32)).mlen ∧
      RunsBytes (progAt 0xFFFFB#32 [0x83, 0x0D, 0, 0, 0]) ((0x83#8 :: (RM32.mem (.abs 0#32)).encode 1#3).take 5) ∧
      (progAt 0xFFFFB#32 [0x83, 0x0D, 0, 0, 0]).eip.toNat + 5 = (progAt 0xFFFFB#32 [0x83, 0x0D, 0, 0, 0]).memory.size) :=
  ⟨⟨progAt 0x100000#32 [], by decide⟩,
   ⟨by decide, ⟨by decide, ⟨rfl, bytesAt_of (by decide) (by decide)⟩, by decide⟩,
    by decide, ⟨rfl, bytesAt_of (by decide) (by decide)⟩, by decide⟩,
   by decide, by decide, by decide, ⟨rfl, bytesAt_of (by decide) (by decide)⟩, by decide⟩

/-- An instruction that writes no flag, a subtraction that completes with either flags word, and an instruction that is no
conditional jump. -/
theorem witness_FlagsHaveFourWritersAndTenReaders :
    (∃ t, isSubtraction (.incR32 .eax) = false ∧ exec (.incR32 .eax) State.reset = .next t) ∧
    (∃ t t', isSubtraction (.cmpEaxImm32 1#32) = true ∧ State.reset.runState = .running ∧
      exec (.cmpEaxImm32 1#32) State.reset = .next t ∧ t.runState = .running ∧
      exec (.cmpEaxImm32 1#32) (State.reset.setEflags 0xFFFF#16) = .next t') ∧
    (∃ t, (∀ rel, Instr.leave ∉ conditionalJumps rel) ∧ exec .leave State.reset = .next t) := by
  refine ⟨?_, ?_, ?_⟩
  · exact ⟨_, rfl, rfl⟩
  · exact ⟨_, _, rfl, rfl, rfl, rfl, rfl⟩
  · obtain ⟨t, h⟩ := next_of_completes (o := exec .leave State.reset) (by decide)
    exact ⟨t, by simp [conditionalJumps], h⟩

theorem witness_OnlyIoInstructionsTouchTheAgents :
    ∃ t, exec (.incR32 .eax) State.reset = .next t ∧ Instr.incR32 .eax ≠ .inAlDx ∧ Instr.incR32 .eax ≠ .outDxAl ∧
      ∀ v, Instr.incR32 .eax ≠ .int v :=
  ⟨_, rfl, by decide, by decide, fun _ => by simp⟩

theorem witness_EventsOnlyGrow : ∃ s t, step s = .next t ∧ t.events ≠ [] := by
  obtain ⟨t, h, e⟩ := next_with (o := step (prog [0xCD, 0x21])) (f := fun t => t.events)
    (v := [.reportUnknownInterrupt 0x21#8]) (by decide)
  exact ⟨_, t, h, by simp [e]⟩

/-- With QUIET false. -/
theorem witness_QuietOnlySuppressesTraces : ∃ s t : State, s.quiet = false ∧ step s = .next t := by
  obtain ⟨t, h⟩ := next_of_completes (o := step { prog [0xCD, 0x21] with quiet := false }) (by decide)
  exact ⟨_, t, rfl, h⟩

theorem witness_AliasWriteTouchesOnlyItsSlice : (State.reset.setReg .eax 0x12345678#32).reg .eax = 0x12345678#32 := by decide

/-- The last byte and the first address beyond it, the last word and the first that straddles the end. -/
theorem witness_MemoryAccessesReadAndWriteTheirBytes :
    leastMemory.memory.wf = true ∧ 0x7DFF + 1 ≤ leastMemory.memory.size ∧ leastMemory.memory.size < 0x7E00 + 1 ∧
    0x7DFC + 4 ≤ leastMemory.memory.size ∧ leastMemory.memory.size < 0x7DFD + 4 := by decide

theorem witness_MixedWidthAccessesSeeBytes :
    ∃ m', leastMemory.memory.wf = true ∧ leastMemory.memory.write32 0x7DFC 0x11223344#32 = .ok m' :=
  ⟨_, by decide, Memory.write32_ok _ _ _ (by decide)⟩

/-- The same bytes written in two orders. -/
theorem witness_CanonicalMemoryIsDeterminedByItsBytes :
    let m := (leastMemory.memory.setByte 1 5#8).setByte 0 7#8
    let m' := (leastMemory.memory.setByte 0 7#8).setByte 1 5#8
    m.wf = true ∧ m'.wf = true ∧ m.size = m'.size ∧ ∀ a, m.byte a = m'.byte a :=
  ⟨by decide, by decide, rfl, fun _ => rfl⟩

/-- A memory operand that is the last word of memory. -/
theorem witness_AddAndIncUpdateTheirOperandWithoutFlags :
    leastMemory.memory.wf = true ∧ (effAddr leastMemory (.abs 0x7DFC#32)).toNat + 4 = leastMemory.memory.size ∧
    Rm32InMemory leastMemory (.mem (.abs 0x7DFC#32)) ∧ Rm32InMemory leastMemory (.reg .esp) :=
  ⟨by decide, by decide, Nat.le_of_eq (by decide), trivial⟩

theorem witness_SubUpdatesItsOperandAndTheFlags :
    leastMemory.memory.wf = true ∧ Rm32InMemory leastMemory (.mem (.abs 0x7DFC#32)) ∧ Rm32InMemory leastMemory (.reg .esp) :=
  ⟨by decide, Nat.le_of_eq (by decide), trivial⟩

/-- The three instructions of the list, the first with the last word of memory. -/
theorem witness_CompareWritesOnlyTheFlags :
    Rm32InMemory leastMemory (.mem (.abs 0x7DFC#32)) ∧
    ∀ e ∈ [(Instr.cmpR32Rm32 .eax (.mem (.abs 0x7DFC#32)), leastMemory.reg .eax,
          rm32Value leastMemory (.mem (.abs 0x7DFC#32)), 1 + (RM32.mem (.abs 0x7DFC#32)).mlen),
        (Instr.cmpAlImm8 0xFF#8, (leastMemory.reg8 .al).zeroExtend 32, (0xFF#8).zeroExtend 32, 2),
        (Instr.cmpEaxImm32 1#32, leastMemory.reg .eax, 1#32, 5)],
      completes (exec e.1 leastMemory) = true :=
  ⟨Nat.le_of_eq (by decide), by decide⟩

theorem witness_MovStoresAWord :
    leastMemory.memory.wf = true ∧ Rm32InMemory leastMemory (.mem (.abs 0x7DFC#32)) ∧ Rm32InMemory leastMemory (.reg .esp) :=
  ⟨by decide, Nat.le_of_eq (by decide), trivial⟩

theorem witness_MovStoresAByte :
    leastMemory.memory.wf = true ∧ Rm8InMemory leastMemory (.mem (.abs 0x7DFF#32)) ∧ Rm8InMemory leastMemory (.reg .bh) :=
  ⟨by decide, Nat.le_of_eq (by decide), trivial⟩

theorem witness_MovLoadsARegister :
    Rm32InMemory leastMemory (.mem (.abs 0x7DFC#32)) ∧ Rm32InMemory leastMemory (.reg .esp) :=
  ⟨Nat.le_of_eq (by decide), trivial⟩

theorem witness_MovLoadsAnAlias :
    Rm8InMemory leastMemory (.mem (.abs 0x7DFF#32)) ∧ Rm8InMemory leastMemory (.reg .bh) :=
  ⟨Nat.le_of_eq (by decide), trivial⟩

/-- A push into the last word of memory. -/
theorem witness_PushStoresTheValueBelowEsp :
    let s := leastMemory.setReg .esp 0x7E00#32
    s.memory.wf = true ∧ (s.reg .esp - 4#32).toNat + 4 = s.memory.size := by decide

/-- A pop of the last word of memory. -/
theorem witness_PopLoadsTheWordAtEsp :
    let s := leastMemory.setReg .esp 0x7DFC#32
    (s.reg .esp).toNat + 4 = s.memory.size ∧ Reg.eax ≠ .esp := by decide

theorem witness_LeaveRestoresTheFrame :
    let s := leastMemory.setReg .ebp 0x7DFC#32
    (s.reg .ebp).toNat + 4 = s.memory.size := by decide

theorem witness_PushThenPopGivesTheValueBack :
    let s := leastMemory.setReg .esp 4#32
    s.memory.wf = true ∧ (s.reg .esp - 4#32).toNat + 4 ≤ s.memory.size ∧ Reg.ebp ≠ .esp := by decide

/-- Each condition of the list holds in some state and fails in another. -/
theorem witness_ConditionalJumpsFollowTheirCondition :
    (State.reset.setEflags 0x0801#16).flag .overflow = true ∧
    (State.reset.setEflags 0x0801#16).flag .carry = true ∧ (State.reset.setEflags 0x0801#16).flag .zero = false ∧
    (State.reset.setEflags 0x0801#16).flag .sign ≠ (State.reset.setEflags 0x0801#16).flag .overflow ∧
    (State.reset.setEflags 0x00C0#16).flag .zero = true ∧ (State.reset.setEflags 0x00C0#16).flag .sign = true ∧
    (State.reset.setEflags 0x00C0#16).flag .carry = false ∧ (State.reset.setEflags 0x00C0#16).flag .overflow = false ∧
    State.reset.flag .sign = false ∧ State.reset.flag .sign = State.reset.flag .overflow := by decide

theorem witness_JumpsAfterACompare :
    ∃ t, Rm32InMemory leastMemory (.mem (.abs 0x7DFC#32)) ∧
      exec (.cmpR32Rm32 .esp (.mem (.abs 0x7DFC#32))) leastMemory = .next t := by
  obtain ⟨t, h⟩ := next_of_completes (o := exec (.cmpR32Rm32 .esp (.mem (.abs 0x7DFC#32))) leastMemory) (by decide)
  exact ⟨t, Nat.le_of_eq (by decide), h⟩

theorem witness_JumpsGoToTheirTarget :
    (Instr.jmpRel32 0xFFFF83FB#32, State.reset.eip + 5#32 + 0xFFFF83FB#32) ∈
      [(Instr.jmpRel32 0xFFFF83FB#32, State.reset.eip + 5#32 + 0xFFFF83FB#32),
       (Instr.jmpRel8 0x80#8, State.reset.eip + 2#32 + (0x80#8).signExtend 32)] := by decide

theorem witness_CallPushesTheReturnAddress :
    let s := leastMemory.setReg .esp 4#32
    s.memory.wf = true ∧ (s.reg .esp - 4#32).toNat + 4 ≤ s.memory.size := by decide

theorem witness_RetGoesToTheWordAtEsp :
    let s := leastMemory.setReg .esp 0x7DFC#32
    (s.reg .esp).toNat + 4 = s.memory.size := by decide

theorem witness_RetUndoesACall :
    let s := leastMemory.setReg .esp 0x7E00#32
    s.memory.wf = true ∧ (s.reg .esp - 4#32).toNat + 4 = s.memory.size := by decide

/-- The three clauses on the event. -/
theorem witness_IntEmitsOneEventAndFallsThrough :
    (State.reset.setReg .eax 0x0E41#32).reg8 .ah = 0x0E#8 ∧ State.reset.reg8 .ah ≠ 0x0E#8 ∧ 0x21#8 ≠ 0x10#8 := by decide

/-- A state whose next IN reads from the given input source. -/
def inState (lines : List (List Nat)) (e : InputAfter) : State :=
  { State.reset.setReg .edx 0xABCD03F8#32 with input := { lines := lines, after := e } }

/-- The four cases, the first two at the greatest byte and the least character above it. -/
theorem witness_InReadsTheNextLineIntoAl :
    (inState [[255, 1], [2]] .ended).port = 0x03F8#16 ∧
    (inState [[255, 1], [2]] .ended).input.lines = (255 :: [1]) :: [[2]] ∧ 255 < 256 ∧
    (inState [[256]] .ended).input.lines = (256 :: []) :: [] ∧ 256 ≤ 256 ∧
    (inState [[]] .silent).input.lines = [] :: [] ∧
    (inState [] .ended).input.lines = [] ∧ (inState [] .ended).input.after ≠ .silent ∧
    (inState [] .unknownLines).input.after ≠ .silent := by decide

/-- The ports on both sides of 0x03F8, and a silent source. -/
theorem witness_InStopsOnUnknownPortAndSilence :
    (State.reset.setReg .edx 0x3F7#32).port ≠ 0x03F8#16 ∧ (State.reset.setReg .edx 0x3F9#32).port ≠ 0x03F8#16 ∧
    (inState [] .silent).port = 0x03F8#16 ∧ (inState [] .silent).input.lines = [] ∧
    (inState [] .silent).input.after = .silent := by decide

/-- The first address whose word, and whose byte, does not fit. -/
theorem witness_OperandBeyondMemoryHalts :
    leastMemory.memory.size < (effAddr leastMemory (.abs 0x7DFD#32)).toNat + 4 ∧
    leastMemory.memory.size < (effAddr leastMemory (.abs 0x7E00#32)).toNat + 1 := by decide

/-- The three clauses: a push that wraps below 0 and one that straddles the end, a pop and a LEAVE of the first word that does not
fit. -/
theorem witness_StackBeyondMemoryHalts :
    leastMemory.memory.size < ((leastMemory.setReg .esp 3#32).reg .esp - 4#32).toNat + 4 ∧
    leastMemory.memory.size < ((leastMemory.setReg .esp 0x7E01#32).reg .esp - 4#32).toNat + 4 ∧
    leastMemory.memory.size < ((leastMemory.setReg .esp 0x7DFD#32).reg .esp).toNat + 4 ∧
    leastMemory.memory.size < ((leastMemory.setReg .ebp 0x7DFD#32).reg .ebp).toNat + 4 := by decide

end Sys2Proof.Tests
end

/-! PROOFS. Writing an 8-bit alias (10_state.md R24). -/

namespace Sys2Proof.Proofs.Alias

open Sys2Proof Sys2Proof.Machine

/-- The parent register after an alias write, once its value before the write is known. -/
theorem reg_parent_setReg8 {s : State} {r : Reg8} {w : Word} (h : s.reg (Reg8.parent r) = w) (v : Byte) :
    (s.setReg8 r v).reg (Reg8.parent r) = aliasWrite w (Reg8.isHigh r) v := by
  rw [State.reg_setReg8, if_pos rfl, h]

theorem sameMemory_setReg8 (s : State) (r : Reg8) (v : Byte) : SameMemory s (s.setReg8 r v) :=
  ⟨rfl, fun _ => rfl⟩

theorem sameOutside_setReg8 (s : State) (r : Reg8) (v : Byte) : SameOutside s (s.setReg8 r v) :=
  ⟨rfl, rfl, rfl, rfl, rfl⟩

/-- Settles O30: the general clause is the law `reg8Becomes_setReg8` with the frame of `setReg8`; R24's example writes AL and then AH,
each time through the parent register's value before the write. -/
theorem aliasWriteTouchesOnlyItsSlice : Obligations.AliasWriteTouchesOnlyItsSlice := by
  unfold Obligations.AliasWriteTouchesOnlyItsSlice
  refine ⟨fun s r v => ⟨reg8Becomes_setReg8 s r v, sameMemory_setReg8 s r v, State.setReg8_eflags s r v,
    sameOutside_setReg8 s r v, State.setReg8_eip s r v⟩, fun s h => ?_⟩
  have hal : (s.setReg8 .al 0xAB#8).reg .eax = 0x123456AB#32 := reg_parent_setReg8 (r := .al) h _
  have hah : ((s.setReg8 .al 0xAB#8).setReg8 .ah 0xCD#8).reg .eax = 0x1234CDAB#32 :=
    reg_parent_setReg8 (r := .ah) hal _
  exact ⟨hal, hah⟩

end Sys2Proof.Proofs.Alias

/-! PROOFS. A leading byte without a handler (30_encoding.md R89, R91). -/

namespace Sys2Proof.Proofs.LeadingByte

open Sys2Proof Sys2Proof.Machine

/-! ## From the bytes at EIP to a halt (40_execution_core.md R120, R123, R124) -/

/-- The bytes at EIP are what the fetched instruction bytes begin with. -/
theorem instrBytes_of_runsBytes {s : State} {bs : List Byte} (h : RunsBytes s bs) (hn : bs.length ≤ maxInstrLength) :
    ∃ rest, s.instrBytes = bs ++ rest :=
  let ⟨_, hin, hbytes⟩ := h
  s.memory.window_append s.eip.toNat maxInstrLength bs hn hin hbytes

/-- When the fetch fails, the step halts with that reason: the trace before it keeps every field that the halt keeps. -/
theorem haltsWith_of_fetched_error {s : State} {r : HaltReason} (hrun : s.runState = .running)
    (hf : s.fetched = .error r) : HaltsWith r s := by
  have hstep : step s = .next (s.traced.halt r).endStep := by simp only [step, hrun, hf]
  rw [HaltsWith, hstep, endStep_halted _ r rfl]
  rcases traced_cases s with h | ⟨op, h⟩ <;> rw [h] <;> rfl

/-- When the instruction bytes do not decode, the step halts with the reason of the error. -/
theorem haltsWith_of_decode_error {s : State} {e : DecodeError} (hrun : s.runState = .running)
    (hd : decode s.instrBytes = .error e) : HaltsWith (haltOfDecodeError s.eip e) s :=
  haltsWith_of_fetched_error hrun (by rw [State.fetched, hd])

/-! ## The opcode map on the 256 leading bytes (R89) -/

/-- The opcode map's mask and value rows give a handler to exactly the bytes that R89 lists. -/
theorem dispatch_isSome_iff : ∀ b : Byte, (dispatch b).isSome = true ↔ b ∈ mappedLeadingBytes := by decide

/-- Bytes that begin with one that has no handler do not decode, whatever follows it. -/
theorem decode_of_not_mapped {b : Byte} (hb : b ∉ mappedLeadingBytes) (rest : List Byte) :
    decode (b :: rest) = .error (.unmappedOpcode b) := by
  have hnone : dispatch b = none := by simpa [← dispatch_isSome_iff] using hb
  rw [decode, hnone]

/-- Settles O22: an unlisted byte at EIP begins instruction bytes that do not decode, and a decoding failure halts the step with
nothing else changed; the listed bytes have a handler by `dispatch_isSome_iff`. -/
theorem unmappedLeadingByteHalts : Obligations.UnmappedLeadingByteHalts := by
  unfold Obligations.UnmappedLeadingByteHalts
  refine ⟨fun s b h hb => ?_, by decide, by decide, fun b hb => (dispatch_isSome_iff b).mpr hb⟩
  obtain ⟨rest, hbytes⟩ := instrBytes_of_runsBytes h (Nat.le_add_left 1 9)
  have hd : decode s.instrBytes = .error (.unmappedOpcode b) := by
    rw [hbytes]
    exact decode_of_not_mapped hb rest
  exact haltsWith_of_decode_error h.1 hd

end Sys2Proof.Proofs.LeadingByte

/-! PROOFS. Accesses to the linear memory, and its canonical form (20_memory.md R51 to R53, R56; 10_state.md R35). -/

namespace Sys2Proof.Proofs.LinearMemory

open Sys2Proof Sys2Proof.Machine

/-! ## Single accesses (R51) -/

/-- A byte of the word at an address is the byte at that place (R51, R52). -/
theorem byteOf_word (m : Memory) (a : Nat) : ∀ k, k < 4 → byteOf (m.word a) k = m.byte (a + k) := by
  obtain ⟨h0, h1, h2, h3⟩ := byteOf_le32 (m.byte a) (m.byte (a + 1)) (m.byte (a + 2)) (m.byte (a + 3))
  intro k hk
  interval_cases k
  · exact h0
  · exact h1
  · exact h2
  · exact h3

/-- A byte of a word that was just written (R51). -/
theorem byte_setWord_inside (m : Memory) (a k : Nat) (v : Word) (hw : m.wf = true) (ha : a + 4 ≤ m.size) (hk : k < 4) :
    (m.setWord a v).byte (a + k) = byteOf v k := by
  rw [m.byte_setWord a (a + k) v hw ha, if_pos (by omega), Nat.add_sub_cancel_left]

/-- A byte outside the word that was written (R51). -/
theorem byte_setWord_outside (m : Memory) (a k : Nat) (v : Word) (hw : m.wf = true) (ha : a + 4 ≤ m.size)
    (hk : k < a ∨ a + 4 ≤ k) : (m.setWord a v).byte k = m.byte k := by
  rw [m.byte_setWord a k v hw ha, if_neg (by omega)]

/-- Settles O31: each access is the law of its own size, in and out of range. -/
theorem memoryAccessesReadAndWriteTheirBytes : Obligations.MemoryAccessesReadAndWriteTheirBytes := by
  unfold Obligations.MemoryAccessesReadAndWriteTheirBytes
  intro m a hw
  refine ⟨m.read8_ok a, fun h => ⟨m.read8_error a h, fun v => m.write8_error a v h⟩,
    fun h => ⟨_, m.read32_ok a h, byteOf_word m a⟩, fun h => ⟨m.read32_error a h, fun v => m.write32_error a v h⟩,
    fun v h => ⟨_, m.write8_ok a v h, m.wf_setByte a v hw h, rfl, ?_, fun k hk => ?_⟩,
    fun v h => ⟨_, m.write32_ok a v h, m.wf_setWord a v hw h, rfl, fun k => byte_setWord_inside m a k v hw h,
      fun k => byte_setWord_outside m a k v hw h⟩⟩
  · rw [m.byte_setByte a a v hw, if_pos rfl]
  · rw [m.byte_setByte a k v hw, if_neg hk]

/-! ## The canonical form (log 5) -/

/-- The byte of the first listed cell is not the unlisted byte, and no address below it is listed. -/
theorem cellsGet_head {size lo k : Nat} {v : Byte} {t : List Host.Cell} (h : cellsWf size lo ((k, v) :: t) = true) :
    lo ≤ k ∧ cellsWf size (k + 1) t = true ∧ v ≠ unlistedByte ∧ cellsGet ((k, v) :: t) k = v := by
  simp only [cellsWf, Bool.and_eq_true, decide_eq_true_eq] at h
  obtain ⟨⟨⟨hlo, _⟩, hv⟩, ht⟩ := h
  exact ⟨hlo, ht, hv, if_pos rfl⟩

/-- A canonical list with a cell in it differs, at that cell's address, from any canonical list that begins later. -/
theorem cellsGet_ne_of_later {size lo k : Nat} {v : Byte} {t c : List Host.Cell} (h : cellsWf size lo ((k, v) :: t) = true)
    (hc : cellsWf size (k + 1) c = true) : cellsGet ((k, v) :: t) k ≠ cellsGet c k := by
  obtain ⟨_, _, hv, hk⟩ := cellsGet_head h
  rw [hk, cellsGet_below c (k + 1) size k hc (Nat.lt_succ_self k)]
  exact hv

/-- A canonical list may begin at any address up to its first cell. -/
theorem cellsWf_raise {size lo k : Nat} {v : Byte} {t : List Host.Cell} (h : cellsWf size lo ((k, v) :: t) = true)
    {lo' : Nat} (hk : lo' ≤ k) : cellsWf size lo' ((k, v) :: t) = true := by
  simp only [cellsWf, Bool.and_eq_true, decide_eq_true_eq] at h ⊢
  exact ⟨⟨⟨hk, h.1.1.2⟩, h.1.2⟩, h.2⟩

/-- Canonical lists of cells that give every address the same byte are equal. -/
theorem cells_ext {size : Nat} {c d : List Host.Cell} {lo : Nat} (hc : cellsWf size lo c = true)
    (hd : cellsWf size lo d = true) (e : ∀ a, cellsGet c a = cellsGet d a) : c = d := by
  induction c generalizing d lo with
  | nil =>
    cases d with
    | nil => rfl
    | cons y u => exact absurd (e y.1).symm (cellsGet_ne_of_later hd rfl)
  | cons x t ih =>
    cases d with
    | nil => exact absurd (e x.1) (cellsGet_ne_of_later hc rfl)
    | cons y u =>
      obtain ⟨k, v⟩ := x
      obtain ⟨j, w⟩ := y
      obtain ⟨_, ht, _, hkv⟩ := cellsGet_head hc
      obtain ⟨_, hu, _, hjw⟩ := cellsGet_head hd
      rcases Nat.lt_trichotomy k j with hlt | rfl | hlt
      · exact absurd (e k) (cellsGet_ne_of_later hc (cellsWf_raise hd hlt))
      · have hvw : v = w := by rw [← hkv, e k, hjw]
        subst hvw
        rw [ih ht hu fun a => ?_]
        by_cases ha : a ≤ k
        · rw [cellsGet_below t _ size a ht (by omega), cellsGet_below u _ size a hu (by omega)]
        · have hk : k ≠ a := by omega
          simpa [cellsGet, hk] using e a
      · exact absurd (e j).symm (cellsGet_ne_of_later hd (cellsWf_raise hc hlt))

/-- Settles O33: the two lists of cells are equal by `cells_ext`. -/
theorem canonicalMemoryIsDeterminedByItsBytes : Obligations.CanonicalMemoryIsDeterminedByItsBytes := by
  unfold Obligations.CanonicalMemoryIsDeterminedByItsBytes
  intro m m' hw hw' hsize e
  obtain ⟨size, c⟩ := m
  obtain ⟨size', c'⟩ := m'
  obtain rfl : size = size' := hsize
  rw [cells_ext (c := c) (d := c') hw hw' e]

/-! ## Mixed widths (R53) -/

/-- Four bytes written from the last to the first are the word they make up: the two memories have the same bytes, and both are
canonical. -/
theorem setByte_descending (m : Memory) (a : Nat) (v : Word) (hw : m.wf = true) (ha : a + 4 ≤ m.size) :
    (((m.setByte (a + 3) (byteOf v 3)).setByte (a + 2) (byteOf v 2)).setByte (a + 1) (byteOf v 1)).setByte a (byteOf v 0) =
      m.setWord a v := by
  have h3 := m.wf_setByte (a + 3) (byteOf v 3) hw (by omega)
  have h2 := Memory.wf_setByte _ (a + 2) (byteOf v 2) h3 (by simp only [Memory.size_setByte]; omega)
  have h1 := Memory.wf_setByte _ (a + 1) (byteOf v 1) h2 (by simp only [Memory.size_setByte]; omega)
  have h0 := Memory.wf_setByte _ a (byteOf v 0) h1 (by simp only [Memory.size_setByte]; omega)
  refine canonicalMemoryIsDeterminedByItsBytes _ _ h0 (m.wf_setWord a v hw ha) rfl fun b => ?_
  rw [m.byte_setWord a b v hw ha, Memory.byte_setByte _ _ _ _ h1, Memory.byte_setByte _ _ _ _ h2,
    Memory.byte_setByte _ _ _ _ h3, Memory.byte_setByte _ _ _ _ hw]
  by_cases hb : a ≤ b ∧ b < a + 4
  · obtain rfl | rfl | rfl | rfl : b = a ∨ b = a + 1 ∨ b = a + 2 ∨ b = a + 3 := by omega
    all_goals simp
  · rw [if_neg (by omega), if_neg (by omega), if_neg (by omega), if_neg (by omega), if_neg hb]

/-- A word write answers exactly when its four bytes lie within memory, and then with the word in place. -/
theorem write32_eq_ok {m m' : Memory} {a : Nat} {v : Word} (h : m.write32 a v = .ok m') :
    a + 4 ≤ m.size ∧ m' = m.setWord a v := by
  by_cases ha : a + 4 ≤ m.size
  · rw [m.write32_ok a v ha] at h
    cases h
    exact ⟨ha, rfl⟩
  · rw [m.write32_error a v (by omega)] at h
    cases h

/-- Settles O32: the word and its bytes are read back by the write's laws, and the four byte writes are `setByte_descending`. -/
theorem mixedWidthAccessesSeeBytes : Obligations.MixedWidthAccessesSeeBytes := by
  unfold Obligations.MixedWidthAccessesSeeBytes
  intro m m' a v hw h
  obtain ⟨ha, rfl⟩ := write32_eq_ok h
  refine ⟨?_, fun k hk => ?_, ?_⟩
  · rw [Memory.read32_ok (m.setWord a v) a ha, m.word_setWord a v hw ha]
  · rw [Memory.read8_ok _ (a + k) (by simp only [Memory.size_setWord]; omega), byte_setWord_inside m a k v hw ha hk]
  · rw [← setByte_descending m a v hw ha]
    simp (disch := ((try simp only [Memory.size_setByte]); omega)) only [Memory.write8_ok, bind, Except.bind]

end Sys2Proof.Proofs.LinearMemory

/-! PROOFS. The round trip from an instruction to its bytes and back (30_encoding.md R80 to R95). -/

namespace Sys2Proof.Proofs.RoundTrip

open Sys2Proof Sys2Proof.Machine

/-- Settles O7: the law of `Laws.RoundTrip` for each constructor. -/
theorem decodeOfEncodeIsTheInstruction : Obligations.DecodeOfEncodeIsTheInstruction := by
  unfold Obligations.DecodeOfEncodeIsTheInstruction
  intro i rest hwf
  cases i with
  | addRm32R32 dst src => exact Laws.RoundTrip.addRm32R32 dst src hwf rest
  | cmpR32Rm32 a b => exact Laws.RoundTrip.cmpR32Rm32 a b hwf rest
  | cmpAlImm8 imm => exact Laws.RoundTrip.cmpAlImm8 imm hwf rest
  | cmpEaxImm32 imm => exact Laws.RoundTrip.cmpEaxImm32 imm hwf rest
  | incR32 r => exact Laws.RoundTrip.incR32 r hwf rest
  | pushR32 r => exact Laws.RoundTrip.pushR32 r hwf rest
  | popR32 r => exact Laws.RoundTrip.popR32 r hwf rest
  | pushImm32 imm => exact Laws.RoundTrip.pushImm32 imm hwf rest
  | pushImm8 imm => exact Laws.RoundTrip.pushImm8 imm hwf rest
  | jo rel => exact Laws.RoundTrip.jo rel hwf rest
  | jno rel => exact Laws.RoundTrip.jno rel hwf rest
  | jc rel => exact Laws.RoundTrip.jc rel hwf rest
  | jnc rel => exact Laws.RoundTrip.jnc rel hwf rest
  | jz rel => exact Laws.RoundTrip.jz rel hwf rest
  | jnz rel => exact Laws.RoundTrip.jnz rel hwf rest
  | js rel => exact Laws.RoundTrip.js rel hwf rest
  | jns rel => exact Laws.RoundTrip.jns rel hwf rest
  | jl rel => exact Laws.RoundTrip.jl rel hwf rest
  | jle rel => exact Laws.RoundTrip.jle rel hwf rest
  | addRm32Imm8 dst imm => exact Laws.RoundTrip.addRm32Imm8 dst imm hwf rest
  | subRm32Imm8 dst imm => exact Laws.RoundTrip.subRm32Imm8 dst imm hwf rest
  | movRm8R8 dst src => exact Laws.RoundTrip.movRm8R8 dst src hwf rest
  | movRm32R32 dst src => exact Laws.RoundTrip.movRm32R32 dst src hwf rest
  | movR8Rm8 dst src => exact Laws.RoundTrip.movR8Rm8 dst src hwf rest
  | movR32Rm32 dst src => exact Laws.RoundTrip.movR32Rm32 dst src hwf rest
  | movR8Imm8 dst imm => exact Laws.RoundTrip.movR8Imm8 dst imm hwf rest
  | movR32Imm32 dst imm => exact Laws.RoundTrip.movR32Imm32 dst imm hwf rest
  | ret => exact Laws.RoundTrip.ret hwf rest
  | movRm32Imm32 ext dst imm => exact Laws.RoundTrip.movRm32Imm32 ext dst imm hwf rest
  | leave => exact Laws.RoundTrip.leave hwf rest
  | int v => exact Laws.RoundTrip.int v hwf rest
  | callRel32 rel => exact Laws.RoundTrip.callRel32 rel hwf rest
  | jmpRel32 rel => exact Laws.RoundTrip.jmpRel32 rel hwf rest
  | jmpRel8 rel => exact Laws.RoundTrip.jmpRel8 rel hwf rest
  | inAlDx => exact Laws.RoundTrip.inAlDx hwf rest
  | outDxAl => exact Laws.RoundTrip.outDxAl hwf rest
  | incRm32 dst => exact Laws.RoundTrip.incRm32 dst hwf rest

/-! ## From bytes to an instruction -/

/-- What decoding `bs` may answer: a well-formed instruction whose encoding the bytes begin with, or any failure but the
unreachable one (R26, log 30). -/
inductive Sound (bs : List Byte) : Except DecodeError (Instr × List Byte) → Prop where
  | ok {i : Instr} {rest : List Byte} : i.wellFormed = true → bs = encode i ++ rest → Sound bs (.ok (i, rest))
  | error {e : DecodeError} : (∀ k, e ≠ .badRegisterIndex k) → Sound bs (.error e)

/-! Taking a field is sound when what is done with the field is, knowing the bytes the field stood in. -/

theorem sound_take8 {bs rest : List Byte} {off : Nat} {f : Byte × List Byte → Except DecodeError (Instr × List Byte)}
    (h : ∀ b t, rest = b :: t → Sound bs (f (b, t))) : Sound bs (take8 off rest >>= f) := by
  cases e : take8 off rest with
  | ok p => exact h p.1 p.2 (take8_ok e)
  | error d =>
    cases rest with
    | nil => cases e; exact .error fun k hk => nomatch hk
    | cons b t => cases e

/-- The only way a 32-bit field fails is that it does not fit. -/
theorem take32_error {off : Nat} {bs : List Byte} {e : DecodeError} (h : take32 off bs = .error e) : e = .outOfBytes off := by
  unfold take32 at h
  split at h
  · cases h
  · cases h; rfl

theorem sound_take32 {bs rest : List Byte} {off : Nat} {f : Word × List Byte → Except DecodeError (Instr × List Byte)}
    (h : ∀ w t, rest = leBytes w ++ t → Sound bs (f (w, t))) : Sound bs (take32 off rest >>= f) := by
  cases e : take32 off rest with
  | ok p => exact h p.1 p.2 (take32_ok e)
  | error d => exact .error fun k hk => nomatch (take32_error e).symm.trans hk

/-- A memory operand's displacement fails only when it does not fit. -/
theorem takeMem_error {mod : BitVec 2} {rm : BitVec 3} {bs : List Byte} {e : DecodeError} (h : takeMem mod rm bs = .error e) :
    e = .outOfBytes 2 := by
  simp only [takeMem] at h
  split_ifs at h
  · cases ht : take32 2 bs with
    | ok p => rw [ht] at h; cases h
    | error d => rw [ht] at h; cases h; exact take32_error ht
  · cases bs with
    | nil => cases h; rfl
    | cons b t => cases h
  · cases ht : take32 2 bs with
    | ok p => rw [ht] at h; cases h
    | error d => rw [ht] at h; cases h; exact take32_error ht

/-- The ways a ModRM group fails: a field that does not fit, or the SIB form (R85, R125). -/
theorem takeModRM_error {bs : List Byte} {e : DecodeError} (h : takeModRM bs = .error e) :
    (∃ off, e = .outOfBytes off) ∨ ∃ m, e = .sibForm m := by
  cases bs with
  | nil => cases h; exact .inl ⟨1, rfl⟩
  | cons m t =>
    simp only [takeModRM, take8_cons, bind, Except.bind] at h
    split_ifs at h
    · cases h; exact .inr ⟨m, rfl⟩
    · cases ht : takeMem (m.extractLsb' 6 2) (m.extractLsb' 0 3) t with
      | ok p => rw [ht] at h; cases h
      | error d => rw [ht] at h; cases h; exact .inl ⟨2, takeMem_error ht⟩

/-- The decoded group is that of a 32-bit operand. -/
theorem sound_takeModRM32 {bs rest : List Byte} {f : ModRM × List Byte → Except DecodeError (Instr × List Byte)}
    (h : ∀ m t, m.loc.rm32.wellFormed = true → rest = m.loc.rm32.encode m.reg ++ t → Sound bs (f (m, t))) :
    Sound bs (takeModRM rest >>= f) := by
  cases e : takeModRM rest with
  | ok p =>
    obtain ⟨hwf, _, hrest, _⟩ := takeModRM_ok e
    exact h p.1 p.2 hwf hrest
  | error d => rcases takeModRM_error e with ⟨off, rfl⟩ | ⟨m, rfl⟩ <;> exact .error fun k hk => nomatch hk

/-- The decoded group is that of an 8-bit operand. -/
theorem sound_takeModRM8 {bs rest : List Byte} {f : ModRM × List Byte → Except DecodeError (Instr × List Byte)}
    (h : ∀ m t, m.loc.rm8.wellFormed = true → rest = m.loc.rm8.encode m.reg ++ t → Sound bs (f (m, t))) :
    Sound bs (takeModRM rest >>= f) := by
  cases e : takeModRM rest with
  | ok p =>
    obtain ⟨_, hwf, _, hrest, _⟩ := takeModRM_ok e
    exact h p.1 p.2 hwf hrest
  | error d => rcases takeModRM_error e with ⟨off, rfl⟩ | ⟨m, rfl⟩ <;> exact .error fun k hk => nomatch hk

/-- A checked index that is in range. -/
theorem sound_checked {α : Type} {bs : List Byte} {x : Except DecodeError α} {a : α}
    {f : α → Except DecodeError (Instr × List Byte)} (h : x = .ok a) (hf : Sound bs (f a)) : Sound bs (x >>= f) := by
  rw [h]
  exact hf

/-! ## The leading byte of a handler -/

/-- No handler has two rows. -/
theorem opcodeTable_handler_injective : ∀ r ∈ opcodeTable, ∀ r' ∈ opcodeTable, r.handler = r'.handler → r = r' := by decide

/-- A handler whose row masks no bit is reached by one leading byte only. -/
theorem eq_value_of_dispatch {b v : Byte} {h : Handler} (hrow : (⟨0xFF, v, h⟩ : OpcodeRow) ∈ opcodeTable)
    (hd : dispatch b = some h) : b = v := by
  obtain ⟨r, hr, hh, hcov⟩ := dispatch_some hd
  obtain rfl := opcodeTable_handler_injective r hr _ hrow hh
  have hand : b &&& 0xFF#8 = v := eq_of_beq hcov
  have hall : (0xFF#8 : Byte) = BitVec.allOnes 8 := rfl
  rwa [hall, BitVec.and_allOnes] at hand

/-! ## Every handler is sound -/

theorem sound_takeRel8 {op : Byte} {rest : List Byte} {mk : Byte → Instr} (hwf : ∀ rel, (mk rel).wellFormed = true)
    (henc : ∀ rel, encode (mk rel) = [op, rel]) : Sound (op :: rest) (takeRel8 mk rest) :=
  sound_take8 fun rel t e => .ok (hwf rel) (by rw [henc, e]; rfl)

theorem sound_decodeGroup83 (rest : List Byte) : Sound (0x83#8 :: rest) (decodeGroup83 rest) := by
  refine sound_takeModRM32 fun m t hwf e => ?_
  subst e
  obtain ⟨n, loc⟩ := m
  dsimp only
  split_ifs with h0 h5
  · subst h0
    exact sound_take8 fun imm u e => .ok hwf (by simp [encode, e])
  · subst h5
    exact sound_take8 fun imm u e => .ok hwf (by simp [encode, e])
  · exact .error fun k hk => nomatch hk

theorem sound_decodeGroupFF (rest : List Byte) : Sound (0xFF#8 :: rest) (decodeGroupFF rest) := by
  refine sound_takeModRM32 fun m t hwf e => ?_
  subst e
  obtain ⟨n, loc⟩ := m
  dsimp only
  split_ifs with h0
  · subst h0
    exact .ok hwf (by simp [encode])
  · exact .error fun k hk => nomatch hk

/-- Every handler, at a leading byte that has it, answers soundly: its leading byte is its row's (`eq_value_of_dispatch`), or is
the base with the register number in it (the laws `dispatch_<handler>`), and its fields are taken one after another. -/
theorem sound_decodeHandler {h : Handler} {op : Byte} (hd : dispatch op = some h) (rest : List Byte) :
    Sound (op :: rest) (decodeHandler h op rest) := by
  cases h with
  | addRm32R32 =>
    obtain rfl := eq_value_of_dispatch (v := 0x01#8) (by decide) hd
    exact sound_takeModRM32 fun m t hwf e => .ok hwf (by simp [encode, e])
  | cmpR32Rm32 =>
    obtain rfl := eq_value_of_dispatch (v := 0x3B#8) (by decide) hd
    exact sound_takeModRM32 fun m t hwf e => .ok hwf (by simp [encode, e])
  | cmpAlImm8 =>
    obtain rfl := eq_value_of_dispatch (v := 0x3C#8) (by decide) hd
    exact sound_take8 fun imm t e => .ok rfl (by simp [encode, e])
  | cmpEaxImm32 =>
    obtain rfl := eq_value_of_dispatch (v := 0x3D#8) (by decide) hd
    exact sound_take32 fun imm t e => .ok rfl (by simp [encode, e])
  | incR32 =>
    obtain ⟨hreg, hop⟩ := dispatch_incR32 op hd
    exact sound_checked hreg (.ok rfl (by simp [encode, hop]))
  | pushR32 =>
    obtain ⟨hreg, hop⟩ := dispatch_pushR32 op hd
    exact sound_checked hreg (.ok rfl (by simp [encode, hop]))
  | popR32 =>
    obtain ⟨hreg, hop⟩ := dispatch_popR32 op hd
    exact sound_checked hreg (.ok rfl (by simp [encode, hop]))
  | pushImm32 =>
    obtain rfl := eq_value_of_dispatch (v := 0x68#8) (by decide) hd
    exact sound_take32 fun imm t e => .ok rfl (by simp [encode, e])
  | pushImm8 =>
    obtain rfl := eq_value_of_dispatch (v := 0x6A#8) (by decide) hd
    exact sound_take8 fun imm t e => .ok rfl (by simp [encode, e])
  | jo =>
    obtain rfl := eq_value_of_dispatch (v := 0x70#8) (by decide) hd
    exact sound_takeRel8 (fun _ => rfl) fun _ => rfl
  | jno =>
    obtain rfl := eq_value_of_dispatch (v := 0x71#8) (by decide) hd
    exact sound_takeRel8 (fun _ => rfl) fun _ => rfl
  | jc =>
    obtain rfl := eq_value_of_dispatch (v := 0x72#8) (by decide) hd
    exact sound_takeRel8 (fun _ => rfl) fun _ => rfl
  | jnc =>
    obtain rfl := eq_value_of_dispatch (v := 0x73#8) (by decide) hd
    exact sound_takeRel8 (fun _ => rfl) fun _ => rfl
  | jz =>
    obtain rfl := eq_value_of_dispatch (v := 0x74#8) (by decide) hd
    exact sound_takeRel8 (fun _ => rfl) fun _ => rfl
  | jnz =>
    obtain rfl := eq_value_of_dispatch (v := 0x75#8) (by decide) hd
    exact sound_takeRel8 (fun _ => rfl) fun _ => rfl
  | js =>
    obtain rfl := eq_value_of_dispatch (v := 0x78#8) (by decide) hd
    exact sound_takeRel8 (fun _ => rfl) fun _ => rfl
  | jns =>
    obtain rfl := eq_value_of_dispatch (v := 0x79#8) (by decide) hd
    exact sound_takeRel8 (fun _ => rfl) fun _ => rfl
  | jl =>
    obtain rfl := eq_value_of_dispatch (v := 0x7C#8) (by decide) hd
    exact sound_takeRel8 (fun _ => rfl) fun _ => rfl
  | jle =>
    obtain rfl := eq_value_of_dispatch (v := 0x7E#8) (by decide) hd
    exact sound_takeRel8 (fun _ => rfl) fun _ => rfl
  | group83 =>
    obtain rfl := eq_value_of_dispatch (v := 0x83#8) (by decide) hd
    exact sound_decodeGroup83 rest
  | movRm8R8 =>
    obtain rfl := eq_value_of_dispatch (v := 0x88#8) (by decide) hd
    exact sound_takeModRM8 fun m t hwf e => .ok hwf (by simp [encode, e])
  | movRm32R32 =>
    obtain rfl := eq_value_of_dispatch (v := 0x89#8) (by decide) hd
    exact sound_takeModRM32 fun m t hwf e => .ok hwf (by simp [encode, e])
  | movR8Rm8 =>
    obtain rfl := eq_value_of_dispatch (v := 0x8A#8) (by decide) hd
    exact sound_takeModRM8 fun m t hwf e => .ok hwf (by simp [encode, e])
  | movR32Rm32 =>
    obtain rfl := eq_value_of_dispatch (v := 0x8B#8) (by decide) hd
    exact sound_takeModRM32 fun m t hwf e => .ok hwf (by simp [encode, e])
  | movR8Imm8 =>
    obtain ⟨hreg, hop⟩ := dispatch_movR8Imm8 op hd
    exact sound_checked hreg (sound_take8 fun imm t e => .ok rfl (by simp [encode, hop, e]))
  | movR32Imm32 =>
    obtain ⟨hreg, hop⟩ := dispatch_movR32Imm32 op hd
    exact sound_checked hreg (sound_take32 fun imm t e => .ok rfl (by simp [encode, hop, e]))
  | ret =>
    obtain rfl := eq_value_of_dispatch (v := 0xC3#8) (by decide) hd
    exact .ok rfl rfl
  | movRm32Imm32 =>
    obtain rfl := eq_value_of_dispatch (v := 0xC7#8) (by decide) hd
    exact sound_takeModRM32 fun m t hwf e => sound_take32 fun imm u e' => .ok hwf (by simp [encode, e, e'])
  | leave =>
    obtain rfl := eq_value_of_dispatch (v := 0xC9#8) (by decide) hd
    exact .ok rfl rfl
  | int =>
    obtain rfl := eq_value_of_dispatch (v := 0xCD#8) (by decide) hd
    exact sound_take8 fun v t e => .ok rfl (by simp [encode, e])
  | callRel32 =>
    obtain rfl := eq_value_of_dispatch (v := 0xE8#8) (by decide) hd
    exact sound_take32 fun rel t e => .ok rfl (by simp [encode, e])
  | jmpRel32 =>
    obtain rfl := eq_value_of_dispatch (v := 0xE9#8) (by decide) hd
    exact sound_take32 fun rel t e => .ok rfl (by simp [encode, e])
  | jmpRel8 =>
    obtain rfl := eq_value_of_dispatch (v := 0xEB#8) (by decide) hd
    exact sound_takeRel8 (fun _ => rfl) fun _ => rfl
  | inAlDx =>
    obtain rfl := eq_value_of_dispatch (v := 0xEC#8) (by decide) hd
    exact .ok rfl rfl
  | outDxAl =>
    obtain rfl := eq_value_of_dispatch (v := 0xEE#8) (by decide) hd
    exact .ok rfl rfl
  | groupFF =>
    obtain rfl := eq_value_of_dispatch (v := 0xFF#8) (by decide) hd
    exact sound_decodeGroupFF rest

theorem sound_decode (bs : List Byte) : Sound bs (decode bs) := by
  cases bs with
  | nil => exact .error fun k hk => nomatch hk
  | cons op rest =>
    simp only [decode]
    cases hd : dispatch op with
    | none => exact .error fun k hk => nomatch hk
    | some h => exact sound_decodeHandler hd rest

/-- Settles O8: a decoded instruction is the first case of `Sound`. -/
theorem decodedBytesAreTheEncoding : Obligations.DecodedBytesAreTheEncoding := by
  unfold Obligations.DecodedBytesAreTheEncoding
  intro bs rest i h
  have hs := sound_decode bs
  rw [h] at hs
  cases hs with
  | ok hwf hbs => exact ⟨hwf, hbs⟩

/-! ## Lengths (R80, R95) -/

theorem mlen_mem_bounds (m : MemForm) : 1 ≤ m.mlen ∧ m.mlen ≤ 5 := by
  cases m <;> simp [MemForm.mlen]

theorem mlen_rm32_bounds (o : RM32) : 1 ≤ o.mlen ∧ o.mlen ≤ 5 := by
  cases o with
  | reg r => exact ⟨le_refl 1, Nat.le_add_left 1 4⟩
  | mem m => exact mlen_mem_bounds m

theorem mlen_rm8_bounds (o : RM8) : 1 ≤ o.mlen ∧ o.mlen ≤ 5 := by
  cases o with
  | reg r => exact ⟨le_refl 1, Nat.le_add_left 1 4⟩
  | mem m => exact mlen_mem_bounds m

theorem length_encode (i : Instr) : (encode i).length = i.length := by
  cases i <;> simp [encode, Instr.length] <;> omega

theorem length_bounds (i : Instr) : 1 ≤ i.length ∧ i.length ≤ 10 := by
  cases i with
  | addRm32R32 o _ | cmpR32Rm32 _ o | addRm32Imm8 o _ | subRm32Imm8 o _ | movRm32R32 o _ | movR32Rm32 _ o | movRm32Imm32 _ o _
  | incRm32 o =>
    have := mlen_rm32_bounds o
    simp only [Instr.length]
    omega
  | movRm8R8 o _ | movR8Rm8 _ o =>
    have := mlen_rm8_bounds o
    simp only [Instr.length]
    omega
  | _ => simp [Instr.length]

/-- Settles O9: `length_encode` and `length_bounds`. -/
theorem encodingHasTheInstructionLength : Obligations.EncodingHasTheInstructionLength := by
  unfold Obligations.EncodingHasTheInstructionLength
  exact fun i => ⟨length_encode i, length_bounds i⟩

/-- Settles O10: each word is decoded by running the decoder on it. -/
theorem specWordsDecodeToTheirInstructions : Obligations.SpecWordsDecodeToTheirInstructions := by
  unfold Obligations.SpecWordsDecodeToTheirInstructions
  decide

/-- Settles O12: the rows are counted for each of the 256 leading bytes. -/
theorem opcodeTableRowsDoNotOverlap : Obligations.OpcodeTableRowsDoNotOverlap := by
  unfold Obligations.OpcodeTableRowsDoNotOverlap
  decide

end Sys2Proof.Proofs.RoundTrip

/-! PROOFS. A proper part of an instruction's bytes (30_encoding.md R81, R84; 40_execution_core.md R124). -/

namespace Sys2Proof.Proofs.CutShort

open Sys2Proof Sys2Proof.Machine

/-! ## The ModRM group after any opcode that has one -/

/-- Every instruction with a ModRM byte reports first what is wrong with its ModRM group (R264). -/
theorem decode_of_takeModRM_error {op : Byte} {rest : List Byte} {e : DecodeError} (hop : op ∈ modRMLeadingBytes)
    (h : takeModRM rest = .error e) : decode (op :: rest) = .error e := by
  simp only [modRMLeadingBytes, List.mem_cons, List.not_mem_nil, or_false] at hop
  obtain rfl | rfl | rfl | rfl | rfl | rfl | rfl | rfl | rfl := hop <;>
    simp [decode, decodeHandler, decodeGroup83, decodeGroupFF, h, bind, Except.bind]

/-- Instruction bytes that end in the opcode or in the ModRM group `grp`, for a group that reports its own cut. -/
theorem decode_take_group {op : Byte} {grp : List Byte} (imm : List Byte) {mlen k : Nat} (hop : op ∈ modRMLeadingBytes)
    (hlen : grp.length = mlen) (hk : k < 1 + mlen)
    (hgrp : ∀ j, j < mlen → takeModRM (grp.take j) = .error (.outOfBytes (if j = 0 then 1 else 2))) :
    decode ((op :: (grp ++ imm)).take k) = .error (.outOfBytes (groupFieldOffset mlen k)) := by
  cases k with
  | zero => rfl
  | succ j =>
    rw [List.take_succ_cons, List.take_append_of_le_length (by omega),
      decode_of_takeModRM_error hop (hgrp j (by omega))]
    cases j with
    | zero => rfl
    | succ j => simp [groupFieldOffset, show j + 1 + 1 < 1 + mlen by omega]

/-- The same for an instruction that ends with its ModRM group. -/
theorem decode_take_last_group {op : Byte} {grp : List Byte} {mlen k : Nat} (hop : op ∈ modRMLeadingBytes)
    (hlen : grp.length = mlen) (hk : k < 1 + mlen)
    (hgrp : ∀ j, j < mlen → takeModRM (grp.take j) = .error (.outOfBytes (if j = 0 then 1 else 2))) :
    decode ((op :: grp).take k) = .error (.outOfBytes (groupFieldOffset mlen k)) := by
  simpa only [List.append_nil] using decode_take_group [] hop hlen hk hgrp

/-- Bytes that end inside the immediate after a group of `mlen` bytes: the group is complete. -/
theorem take_after_group {op : Byte} {grp imm : List Byte} {k : Nat} (hk : 1 + grp.length ≤ k) :
    (op :: (grp ++ imm)).take k = op :: (grp ++ imm.take (k - (1 + grp.length))) := by
  obtain ⟨j, rfl⟩ : ∃ j, k = 1 + grp.length + j := ⟨k - (1 + grp.length), by omega⟩
  rw [show 1 + grp.length + j = (grp.length + j) + 1 by omega, List.take_succ_cons, List.take_length_add_append]
  congr 4
  omega

theorem groupFieldOffset_immediate {mlen k : Nat} (hm : 1 ≤ mlen) (hk : 1 + mlen ≤ k) : groupFieldOffset mlen k = 1 + mlen := by
  rw [groupFieldOffset, if_neg (by omega), if_neg (by omega)]

/-- Group 0x83 with a mapped selector and no immediate byte. -/
theorem decode_group83_without_immediate {o : RM32} {n : BitVec 3} (hwf : o.wellFormed = true) (hn : n = 0#3 ∨ n = 5#3) :
    decode (0x83#8 :: o.encode n) = .error (.outOfBytes (1 + o.mlen)) := by
  have hgrp : takeModRM (o.encode n) = .ok (⟨n, o.loc⟩, []) := by simpa using takeModRM_rm32 n o [] hwf
  obtain rfl | rfl := hn <;> simp [decode, decodeHandler, decodeGroup83, hgrp, take8, bind, Except.bind]

/-- A proper part of the bytes of a group-0x83 instruction. -/
theorem decode_take_group83 {o : RM32} {n : BitVec 3} (imm : Byte) {k : Nat} (hwf : o.wellFormed = true)
    (hn : n = 0#3 ∨ n = 5#3) (hk : k < 2 + o.mlen) :
    decode ((0x83#8 :: (o.encode n ++ [imm])).take k) = .error (.outOfBytes (groupFieldOffset o.mlen k)) := by
  by_cases hg : k < 1 + o.mlen
  · exact decode_take_group [imm] (by decide) (length_encode_rm32 n o) hg (takeModRM_take_rm32 n o hwf)
  · obtain rfl : k = 1 + o.mlen := by omega
    rw [groupFieldOffset_immediate (RoundTrip.mlen_rm32_bounds o).1 (le_refl _),
      take_after_group (by rw [length_encode_rm32]), length_encode_rm32, Nat.sub_self, List.take_zero, List.append_nil]
    exact decode_group83_without_immediate hwf hn

/-- A proper part of the bytes of MOV r/m32,imm32. -/
theorem decode_take_movRm32Imm32 {o : RM32} {n : BitVec 3} (imm : Word) {k : Nat} (hwf : o.wellFormed = true)
    (hk : k < 5 + o.mlen) :
    decode ((0xC7#8 :: (o.encode n ++ leBytes imm)).take k) = .error (.outOfBytes (groupFieldOffset o.mlen k)) := by
  by_cases hg : k < 1 + o.mlen
  · exact decode_take_group (leBytes imm) (by decide) (length_encode_rm32 n o) hg (takeModRM_take_rm32 n o hwf)
  · have himm := take32_take_leBytes (1 + o.mlen) imm (k - (1 + o.mlen)) (by omega)
    rw [groupFieldOffset_immediate (RoundTrip.mlen_rm32_bounds o).1 (by omega),
      take_after_group (by rw [length_encode_rm32]; omega), length_encode_rm32]
    simp [decode, decodeHandler, takeModRM_rm32 n o _ hwf, himm, bind, Except.bind]

/-! ## Every instruction -/

theorem fieldOffset_zero (i : Instr) : fieldOffset i 0 = 0 := by
  unfold fieldOffset
  split <;> rfl

/-- Settles O11: the opcode is missing, or the one field after it, or a field of the ModRM group, or the immediate after the
group. -/
theorem noProperPartOfAnInstructionDecodes : Obligations.NoProperPartOfAnInstructionDecodes := by
  unfold Obligations.NoProperPartOfAnInstructionDecodes
  intro i k hwf hk
  cases k with
  | zero => rw [fieldOffset_zero]; rfl
  | succ j =>
    rw [RoundTrip.length_encode] at hk
    cases i with
    | incR32 | pushR32 | popR32 | ret | leave | inAlDx | outDxAl => exact absurd hk (Nat.not_lt_of_le (Nat.le_add_left 1 j))
    | cmpAlImm8 | pushImm8 | jo | jno | jc | jnc | jz | jnz | js | jns | jl | jle | movR8Imm8 | int | jmpRel8 =>
      obtain rfl : j = 0 := by simp only [Instr.length] at hk; omega
      simp [encode, decode, decodeHandler, takeRel8, take8, fieldOffset, groupLength, bind, Except.bind]
    | cmpEaxImm32 imm | pushImm32 imm | movR32Imm32 _ imm | callRel32 imm | jmpRel32 imm =>
      have hfield := take32_take_leBytes 1 imm j (by simp only [Instr.length] at hk; omega)
      simp [encode, decode, decodeHandler, hfield, fieldOffset, groupLength, bind, Except.bind]
    | addRm32R32 o r | cmpR32Rm32 r o | movRm32R32 o r | movR32Rm32 r o =>
      exact decode_take_last_group (by decide) (length_encode_rm32 r.code o) hk (takeModRM_take_rm32 r.code o hwf)
    | movRm8R8 o r | movR8Rm8 r o =>
      exact decode_take_last_group (by decide) (length_encode_rm8 r.code o) hk (takeModRM_take_rm8 r.code o hwf)
    | incRm32 o =>
      exact decode_take_last_group (by decide) (length_encode_rm32 0#3 o) hk (takeModRM_take_rm32 0#3 o hwf)
    | addRm32Imm8 o imm =>
      exact decode_take_group83 imm hwf (.inl rfl) (by simp only [Instr.length] at hk; omega)
    | subRm32Imm8 o imm =>
      exact decode_take_group83 imm hwf (.inr rfl) (by simp only [Instr.length] at hk; omega)
    | movRm32Imm32 ext o imm =>
      exact decode_take_movRm32Imm32 imm hwf (by simp only [Instr.length] at hk; omega)

end Sys2Proof.Proofs.CutShort

/-! PROOFS. What the step does with the bytes at EIP (40_execution_core.md R120 to R124, 60_exceptions.md R264). -/

namespace Sys2Proof.Proofs.Fetch

open Sys2Proof Sys2Proof.Machine
open Sys2Proof.Proofs.LeadingByte (instrBytes_of_runsBytes haltsWith_of_decode_error)

/-! ## An instruction that stands at EIP -/

/-- Settles O13: the fetch answers the decoded instruction. -/
theorem stepIsExecOfTheDecodedInstruction : Obligations.StepIsExecOfTheDecodedInstruction := by
  unfold Obligations.StepIsExecOfTheDecodedInstruction
  intro s i rest hrun hd
  simp only [step, State.fetched, hrun, hd]

/-- The encoding of a well-formed instruction, at EIP, is what the fetch decodes, whatever stands behind it. -/
theorem decode_instrBytes {s : State} {i : Instr} (hwf : i.wellFormed = true)
    (hb : BytesAt s.memory s.eip.toNat (encode i)) : ∃ rest, decode s.instrBytes = .ok (i, rest) := by
  have hlen : (encode i).length ≤ maxInstrLength := by
    rw [RoundTrip.length_encode]
    exact (RoundTrip.length_bounds i).2
  obtain ⟨hin, hbytes⟩ := hb
  obtain ⟨rest, hrest⟩ := s.memory.window_append s.eip.toNat maxInstrLength (encode i) hlen hin hbytes
  exact ⟨rest, by rw [State.instrBytes, hrest, RoundTrip.decodeOfEncodeIsTheInstruction i rest hwf]⟩

/-- The first instruction byte is the byte at EIP. -/
theorem instrBytes_cons {s : State} (h : s.eip.toNat < s.memory.size) :
    ∃ rest, s.instrBytes = s.memory.byte s.eip.toNat :: rest :=
  ⟨_, if_pos h⟩

theorem traced_of_quiet {s : State} (h : s.quiet = true) : s.traced = s := by
  simp [State.traced, h]

theorem traced_of_instrBytes {s : State} {op : Byte} {rest : List Byte} (hq : s.quiet = false)
    (hb : s.instrBytes = op :: rest) : s.traced = s.emit (.trace s.eip op) := by
  simp [State.traced, hq, hb]

/-- Settles O14: the step by O13 and the round trip, the trace by the byte at EIP. -/
theorem stepRunsTheInstructionAtEip : Obligations.StepRunsTheInstructionAtEip := by
  unfold Obligations.StepRunsTheInstructionAtEip
  intro s i hwf h
  obtain ⟨hrun, hb⟩ := h
  obtain ⟨rest, hd⟩ := decode_instrBytes hwf hb
  refine ⟨stepIsExecOfTheDecodedInstruction s i rest hrun hd, traced_of_quiet, fun hq => ?_⟩
  have hlen : 1 ≤ (encode i).length := by
    rw [RoundTrip.length_encode]
    exact (RoundTrip.length_bounds i).1
  have hin := hb.1
  obtain ⟨t, ht⟩ := instrBytes_cons (s := s) (by omega)
  exact traced_of_instrBytes hq ht

/-- Bytes stored within memory stand where they were stored. -/
theorem bytesAt_setBytes {m : Memory} {a : Nat} {bs : List Byte} (hw : m.wf = true) (h : a + bs.length ≤ m.size) :
    BytesAt (m.setBytes a bs) a bs := by
  obtain ⟨_, hsize, hbyte⟩ := m.setBytes_spec bs a hw
  refine ⟨by rwa [hsize], fun k hk => ?_⟩
  rw [hbyte, if_pos (by omega), Nat.add_sub_cancel_left, List.getElem?_eq_getElem hk, Option.getD_some]

/-- Settles O15: after the store the bytes stand at EIP. -/
theorem storedInstructionIsFetchedNext : Obligations.StoredInstructionIsFetchedNext := by
  unfold Obligations.StoredInstructionIsFetchedNext
  intro s i hwf hw h
  obtain ⟨rest, hd⟩ := decode_instrBytes (s := s.setMemory (s.memory.setBytes s.eip.toNat (encode i))) hwf
    (bytesAt_setBytes hw h)
  rw [State.fetched, hd]

/-! ## Bytes that are no instruction -/

/-- When the bytes at EIP do not decode, whatever stands behind them, the step halts with that failure. -/
theorem haltsWith_of_runsBytes {s : State} {bs : List Byte} {e : DecodeError} (h : RunsBytes s bs)
    (hn : bs.length ≤ maxInstrLength) (hd : ∀ rest, decode (bs ++ rest) = .error e) :
    HaltsWith (haltOfDecodeError s.eip e) s := by
  obtain ⟨rest, hrest⟩ := instrBytes_of_runsBytes h hn
  exact haltsWith_of_decode_error h.1 (by rw [hrest, hd])

/-- The 24 ModRM bytes of the SIB form, by their fields (R85). -/
theorem sibForm_fields : ∀ m : Byte, m &&& 0xC7#8 ∈ [0x04#8, 0x44#8, 0x84#8] →
    m.extractLsb' 6 2 ≠ 3#2 ∧ m.extractLsb' 0 3 = 4#3 := by decide

theorem takeModRM_sibForm {m : Byte} (hm : m &&& 0xC7#8 ∈ [0x04#8, 0x44#8, 0x84#8]) (rest : List Byte) :
    takeModRM (m :: rest) = .error (.sibForm m) := by
  obtain ⟨hmod, hrm⟩ := sibForm_fields m hm
  simp [takeModRM, hmod, hrm, bind, Except.bind]

/-- Settles O23: the SIB test fails the ModRM group of every instruction that has one; with `mod == 3` it is not made. -/
theorem sibFormHalts : Obligations.SibFormHalts := by
  unfold Obligations.SibFormHalts
  constructor
  · intro s op m hop hm h
    exact haltsWith_of_runsBytes h (Nat.le_add_left 2 8) fun rest =>
      CutShort.decode_of_takeModRM_error hop (takeModRM_sibForm hm rest)
  · intro reg imm8 imm32 rest
    refine ⟨?_, ?_, ?_, ?_, ?_, ?_, ?_, ?_, ?_, ?_⟩ <;>
      simp [decode, decodeHandler, decodeGroup83, decodeGroupFF, RmLoc.rm32, RmLoc.rm8, Reg.ofCode, Reg8.ofCode, bind,
        Except.bind]

/-- Settles O24: the ModRM group decodes, and the selector is tested next. -/
theorem unmappedGroupSelectorHalts : Obligations.UnmappedGroupSelectorHalts := by
  unfold Obligations.UnmappedGroupSelectorHalts
  intro s o n hwf
  have hlen : ∀ op : Byte, (op :: o.encode n).length ≤ maxInstrLength := fun op => by
    have := RoundTrip.mlen_rm32_bounds o
    simp only [List.length_cons, length_encode_rm32, maxInstrLength]
    omega
  refine ⟨fun h hn => haltsWith_of_runsBytes (e := .unmappedGroup 0x83#8 n) h (hlen _) fun rest => ?_,
    fun h hn => haltsWith_of_runsBytes (e := .unmappedGroup 0xFF#8 n) h (hlen _) fun rest => ?_⟩
  · obtain ⟨h0, h5⟩ : n ≠ 0#3 ∧ n ≠ 5#3 := by simpa using hn
    simp [decode, decodeHandler, decodeGroup83, takeModRM_rm32 n o rest hwf, h0, h5, bind, Except.bind]
  · simp [decode, decodeHandler, decodeGroupFF, takeModRM_rm32 n o rest hwf, hn, bind, Except.bind]

/-! ## The end of memory -/

/-- A window of bytes that end where memory ends is those bytes. -/
theorem window_eq_of_end {m : Memory} {a n : Nat} {bs : List Byte} (hn : bs.length ≤ n) (hend : a + bs.length = m.size)
    (hb : ∀ k, (h : k < bs.length) → m.byte (a + k) = bs[k]) : m.window a n = bs := by
  refine List.ext_getElem? fun k => ?_
  rw [m.window_getElem?]
  by_cases hk : k < bs.length
  · rw [if_pos (by omega), hb k hk, List.getElem?_eq_getElem hk]
  · rw [if_neg (by omega), List.getElem?_eq_none (by omega)]

/-- When memory ends after the bytes at EIP and these are cut short, the step halts at the field that does not fit. -/
theorem haltsWith_outOfBounds {s : State} {bs : List Byte} {off : Nat} (h : RunsBytes s bs) (hn : bs.length ≤ maxInstrLength)
    (hend : s.eip.toNat + bs.length = s.memory.size) (hd : decode bs = .error (.outOfBytes off)) :
    HaltsWith (.outOfBounds (s.eip.toNat + off)) s := by
  obtain ⟨hrun, _, hbytes⟩ := h
  exact haltsWith_of_decode_error hrun (by rw [State.instrBytes, window_eq_of_end hn hend hbytes, hd])

/-- Settles O25: beyond memory there is no instruction byte; inside an instruction or a ModRM group the cut bytes are those of
`Proofs.CutShort`. -/
theorem fetchBeyondMemoryHalts : Obligations.FetchBeyondMemoryHalts := by
  unfold Obligations.FetchBeyondMemoryHalts
  refine ⟨fun s hrun h => ?_, fun s i k hwf hk h hend => ?_, fun s op o n k hop hwf hk h hend => ?_⟩
  · have hnone : s.instrBytes = [] := if_neg (Nat.not_lt_of_le h)
    exact haltsWith_of_decode_error hrun (by rw [hnone]; rfl)
  · have hmax := (RoundTrip.length_bounds i).2
    have hlen : ((encode i).take k).length = k := List.length_take_of_le (Nat.le_of_lt hk)
    rw [RoundTrip.length_encode] at hk
    exact haltsWith_outOfBounds h (by rw [hlen, maxInstrLength]; omega) (by rw [hlen, hend])
      (CutShort.noProperPartOfAnInstructionDecodes i k hwf (by rwa [RoundTrip.length_encode]))
  · have hmax := (RoundTrip.mlen_rm32_bounds o).2
    have hlen : ((op :: o.encode n).take k).length = k :=
      List.length_take_of_le (by rw [List.length_cons, length_encode_rm32]; omega)
    exact haltsWith_outOfBounds h (by rw [hlen, maxInstrLength]; omega) (by rw [hlen, hend])
      (CutShort.decode_take_last_group hop (length_encode_rm32 n o) hk (takeModRM_take_rm32 n o hwf))

end Sys2Proof.Proofs.Fetch

/-! PROOFS. All an instruction can do, said once: it halts with nothing else changed, or completes; what it can do to the flags, to
QUIET and to the agents; and which of these it depends on (10_state.md R31, R39; 40_execution_core.md R132). -/

namespace Sys2Proof.Proofs.Effect

open Sys2Proof Sys2Proof.Machine

/-! ## The periphery of the state -/

/-- What lies outside the register file, EIP, memory and the run state. -/
structure Periphery where
  eflags : BitVec 16
  quiet : Bool
  input : InputSource
  freeIndex : Nat
  events : List Event

def periphery (s : State) : Periphery :=
  { eflags := s.eflags, quiet := s.quiet, input := s.input, freeIndex := s.freeIndex, events := s.events }

/-- `s` with another periphery. -/
def withPeriphery (s : State) (p : Periphery) : State :=
  { s with eflags := p.eflags, quiet := p.quiet, input := p.input, freeIndex := p.freeIndex, events := p.events }

/-- What an instruction that completes does to the periphery: nothing; a subtraction writes the flags; INT and OUT emit; IN consumes
its input. -/
inductive PeripheryEffect (i : Instr) : (Periphery → Periphery) → Prop where
  | none : isSubtraction i = false → PeripheryEffect i id
  | flags (a b : Word) : isSubtraction i = true →
      PeripheryEffect i fun p => { p with eflags := flagsAfterSub p.eflags a b (sub64 a b) }
  | events (es : List Event) : (i = .outDxAl ∨ ∃ v, i = .int v) → PeripheryEffect i fun p => { p with events := p.events ++ es }
  | input (lines : List (List Nat)) (n : Nat) : i = .inAlDx →
      PeripheryEffect i fun p => { p with input := { p.input with lines := lines }, freeIndex := n }

/-- The peripheries an instruction cannot tell apart: only the conditional jumps read the flags, and only IN reads the input. -/
def Alike (i : Instr) (p q : Periphery) : Prop :=
  ((∃ rel, i ∈ conditionalJumps rel) → p.eflags = q.eflags) ∧
  (i = .inAlDx → p.input = q.input ∧ p.freeIndex = q.freeIndex)

/-! ## What an instruction can do -/

/-- What a completed instruction keeps. -/
structure Kept (s t : State) : Prop where
  runState : t.runState = s.runState
  size : t.memory.size = s.memory.size
  wf : s.memory.wf = true → t.memory.wf = true

theorem Kept.advance {s t : State} (h : Kept s t) (n : Nat) : Kept s (t.advance n) := ⟨h.runState, h.size, h.wf⟩

theorem Kept.of_store {s t : State} (h : SameButRegsAndBytes s t) : Kept s t :=
  let ⟨_, _, hout, hsize, hwf⟩ := h
  ⟨hout.1, hsize, hwf⟩

/-- The reasons an instruction itself can halt with. -/
inductive Raised : HaltReason → Prop where
  | outOfBounds (a : Nat) : Raised (.outOfBounds a)
  | unknownPortRead (port : BitVec 16) : Raised (.unknownPortRead port)

/-- All that `f`, run for the instruction `i`, can do from `s`, and from `s` with any periphery that `i` cannot tell apart. -/
inductive Behaves (i : Instr) (s : State) (f : State → Host.Outcome State Fault Refusal) : Prop where
  /-- It completes, and its effect on the periphery is a function of the periphery alone. -/
  | completes (t : State) (g : Periphery → Periphery) : Kept s t → PeripheryEffect i g →
      (∀ p, Alike i p (periphery s) → f (withPeriphery s p) = .next (withPeriphery t (g p))) → Behaves i s f
  /-- It halts, and does nothing else. -/
  | halts (r : HaltReason) : Raised r →
      (∀ p, Alike i p (periphery s) → f (withPeriphery s p) = .next ((withPeriphery s p).halt r)) → Behaves i s f
  /-- It waits for input that never comes. -/
  | stuck : i = .inAlDx → f s = .fault .inputNeverAnswers → s.port = Config.serialPort → s.input.lines = [] →
      s.input.after = .silent → Behaves i s f

/-! ## The accesses do not read the periphery -/

theorem getRm32_withPeriphery (s : State) (p : Periphery) (o : RM32) : getRm32 (withPeriphery s p) o = getRm32 s o := by
  cases o with
  | reg r => rfl
  | mem m => cases m <;> rfl

theorem getRm8_withPeriphery (s : State) (p : Periphery) (o : RM8) : getRm8 (withPeriphery s p) o = getRm8 s o := by
  cases o with
  | reg r => rfl
  | mem m => cases m <;> rfl

theorem effAddr_withPeriphery (s : State) (p : Periphery) (m : MemForm) : effAddr (withPeriphery s p) m = effAddr s m := by
  cases m <;> rfl

theorem store32_withPeriphery (s : State) (p : Periphery) (a v : Word) :
    (withPeriphery s p).store32 a v = (s.store32 a v).map (withPeriphery · p) := by
  simp only [State.store32, withPeriphery]
  cases s.memory.write32 a.toNat v <;> rfl

theorem store8_withPeriphery (s : State) (p : Periphery) (a : Word) (v : Byte) :
    (withPeriphery s p).store8 a v = (s.store8 a v).map (withPeriphery · p) := by
  simp only [State.store8, withPeriphery]
  cases s.memory.write8 a.toNat v <;> rfl

theorem setRm32_withPeriphery (s : State) (p : Periphery) (o : RM32) (v : Word) :
    setRm32 (withPeriphery s p) o v = (setRm32 s o v).map (withPeriphery · p) := by
  cases o with
  | reg r => rfl
  | mem m => simp only [setRm32, effAddr_withPeriphery, store32_withPeriphery]

theorem setRm8_withPeriphery (s : State) (p : Periphery) (o : RM8) (v : Byte) :
    setRm8 (withPeriphery s p) o v = (setRm8 s o v).map (withPeriphery · p) := by
  cases o with
  | reg r => rfl
  | mem m => simp only [setRm8, effAddr_withPeriphery, store8_withPeriphery]

theorem push32_withPeriphery (s : State) (p : Periphery) (v : Word) :
    push32 (withPeriphery s p) v = (push32 s v).map (withPeriphery · p) := by
  have haddr : (withPeriphery s p).pushAddr = s.pushAddr := rfl
  simp only [push32, haddr, store32_withPeriphery]
  cases s.store32 s.pushAddr v <;> rfl

/-! ## Reads, writes and stack accesses, inside an instruction -/

section
variable {i : Instr} {s : State}

/-- A read that does not depend on the periphery, and what is done with its value. -/
theorem behaves_read {α : Type} {get : State → Except HaltReason α} {k : State → α → Except HaltReason State}
    (hget : ∀ p, get (withPeriphery s p) = get s)
    (hcases : (∃ a, get s = .ok a) ∨ ∃ addr, get s = .error (.outOfBounds addr))
    (h : ∀ a, Behaves i s fun s => complete s (k s a)) : Behaves i s fun s => complete s (get s >>= k s) := by
  obtain ⟨a, e⟩ | ⟨addr, e⟩ := hcases
  · have hk : ∀ p, complete (withPeriphery s p) (get (withPeriphery s p) >>= k (withPeriphery s p)) =
        complete (withPeriphery s p) (k (withPeriphery s p) a) := fun p => by rw [hget, e]; rfl
    cases h a with
    | completes t g hkept hg hf => exact .completes t g hkept hg fun p hp => (hk p).trans (hf p hp)
    | halts r hr hf => exact .halts r hr fun p hp => (hk p).trans (hf p hp)
    | stuck hi hf hport hl ha => exact .stuck hi ((hk (periphery s)).trans hf) hport hl ha
  · exact .halts _ (.outOfBounds addr) fun p _ => by simp only [hget, e]; rfl

theorem behaves_read32 {o : RM32} {k : State → Word → Except HaltReason State}
    (h : ∀ a, Behaves i s fun s => complete s (k s a)) : Behaves i s fun s => complete s (getRm32 s o >>= k s) :=
  behaves_read (fun p => getRm32_withPeriphery s p o)
    ((getRm32_cases s o).imp (fun ⟨_, e⟩ => ⟨_, e⟩) fun ⟨_, _, _, e⟩ => ⟨_, e⟩) h

theorem behaves_read8 {o : RM8} {k : State → Byte → Except HaltReason State}
    (h : ∀ a, Behaves i s fun s => complete s (k s a)) : Behaves i s fun s => complete s (getRm8 s o >>= k s) :=
  behaves_read (fun p => getRm8_withPeriphery s p o)
    ((getRm8_cases s o).imp (fun ⟨_, e⟩ => ⟨_, e⟩) fun ⟨_, _, _, e⟩ => ⟨_, e⟩) h

theorem read32_cases (m : Memory) (a : Nat) : (∃ v, m.read32 a = .ok v) ∨ ∃ addr, m.read32 a = .error (.outOfBounds addr) := by
  by_cases ha : a + 4 ≤ m.size
  · exact .inl ⟨_, m.read32_ok a ha⟩
  · exact .inr ⟨_, m.read32_error a (by omega)⟩

/-- A write that carries the periphery along, and what is done with the state after it: `core`, and `g` on the periphery. -/
theorem behaves_write {set : State → Except HaltReason State} {post core : State → State} {g : Periphery → Periphery}
    (hset : ∀ p, set (withPeriphery s p) = (set s).map (withPeriphery · p))
    (hcases : (∃ t, set s = .ok t ∧ Kept s t) ∨ ∃ addr, set s = .error (.outOfBounds addr))
    (hkept : ∀ t, Kept s t → Kept s (core t)) (hg : PeripheryEffect i g)
    (hpost : ∀ t p, post (withPeriphery t p) = withPeriphery (core t) (g p)) :
    Behaves i s fun s => complete s (set s >>= fun t => .ok (post t)) := by
  obtain ⟨t, e, ht⟩ | ⟨addr, e⟩ := hcases
  · refine .completes (core t) g (hkept t ht) hg fun p _ => ?_
    rw [hset, e, ← hpost]
    rfl
  · exact .halts _ (.outOfBounds addr) fun p _ => by simp only [hset, e]; rfl

/-- A write to a 32-bit operand; the value depends on registers and on a value read before. -/
theorem behaves_write32 {o : RM32} {v : State → Word} {post core : State → State} {g : Periphery → Periphery}
    (hv : ∀ p, v (withPeriphery s p) = v s) (hkept : ∀ t, Kept s t → Kept s (core t)) (hg : PeripheryEffect i g)
    (hpost : ∀ t p, post (withPeriphery t p) = withPeriphery (core t) (g p)) :
    Behaves i s fun s => complete s (setRm32 s o (v s) >>= fun t => .ok (post t)) :=
  behaves_write (fun p => by rw [hv, setRm32_withPeriphery])
    ((setRm32_cases s o (v s)).imp (fun ⟨_, t, e, h, _⟩ => ⟨t, e, .of_store h⟩) fun ⟨_, _, _, e⟩ => ⟨_, e⟩) hkept hg hpost

/-- A write to an 8-bit operand. -/
theorem behaves_write8 {o : RM8} {v : State → Byte} {post core : State → State} {g : Periphery → Periphery}
    (hv : ∀ p, v (withPeriphery s p) = v s) (hkept : ∀ t, Kept s t → Kept s (core t)) (hg : PeripheryEffect i g)
    (hpost : ∀ t p, post (withPeriphery t p) = withPeriphery (core t) (g p)) :
    Behaves i s fun s => complete s (setRm8 s o (v s) >>= fun t => .ok (post t)) :=
  behaves_write (fun p => by rw [hv, setRm8_withPeriphery])
    ((setRm8_cases s o (v s)).imp (fun ⟨_, t, e, h, _⟩ => ⟨t, e, .of_store h⟩) fun ⟨_, _, _, e⟩ => ⟨_, e⟩) hkept hg hpost

/-- A push, and the step to the next instruction or to a target. -/
theorem behaves_push {v : State → Word} {post : State → State}
    (hv : ∀ p, v (withPeriphery s p) = v s) (hkept : ∀ t, Kept s t → Kept s (post t)) (hi : isSubtraction i = false)
    (hpost : ∀ t p, post (withPeriphery t p) = withPeriphery (post t) p) :
    Behaves i s fun s => complete s (push32 s (v s) >>= fun t => .ok (post t)) :=
  behaves_write (fun p => by rw [hv, push32_withPeriphery])
    ((push32_cases s (v s)).imp
      (fun ⟨hin, e⟩ => ⟨_, e, { runState := rfl, size := rfl, wf := fun hw => s.memory.wf_setWord _ _ hw hin }⟩)
      fun ⟨_, e⟩ => ⟨_, e⟩) hkept (.none hi) hpost

/-- A pop, and what is done with the popped word. -/
theorem behaves_pop {post : Word → State → State} (hkept : ∀ v t, Kept s t → Kept s (post v t)) (hi : isSubtraction i = false)
    (hpost : ∀ v t p, post v (withPeriphery t p) = withPeriphery (post v t) p) :
    Behaves i s fun s => complete s (pop32 s >>= fun x => .ok (post x.1 x.2)) := by
  rcases pop32_cases s with ⟨hin, _⟩ | ⟨hout, _⟩
  · refine .completes (post (s.memory.word (s.reg .esp).toNat) (s.setReg .esp (s.reg .esp + 4#32))) id
      (hkept _ _ ⟨rfl, rfl, id⟩) (.none hi) fun p _ => ?_
    rcases pop32_cases (withPeriphery s p) with ⟨_, e⟩ | ⟨hout, _⟩
    · rw [e]; exact congrArg _ (hpost _ (s.setReg .esp (s.reg .esp + 4#32)) p)
    · exact absurd hin (Nat.not_le_of_lt hout)
  · refine .halts (.outOfBounds (s.reg .esp).toNat) (.outOfBounds _) fun p _ => ?_
    rcases pop32_cases (withPeriphery s p) with ⟨hin, _⟩ | ⟨_, e⟩
    · exact absurd hin (Nat.not_le_of_lt hout)
    · rw [e]; rfl

/-! ## The families of instructions -/

theorem behaves_updateRm32 {dst : RM32} {f : State → Word → Word} {len : Nat} (hf : ∀ p, f (withPeriphery s p) = f s)
    (hi : isSubtraction i = false) : Behaves i s fun s => updateRm32 s dst (f s) len :=
  behaves_read32 fun a => behaves_write32 (v := fun s => f s a) (fun p => by rw [hf]) (fun _ h => h.advance len) (.none hi)
    fun _ _ => rfl

theorem behaves_branchIf {rel rel' : Byte} {c : State → Bool} (hjump : i ∈ conditionalJumps rel')
    (hc : ∀ p, c (withPeriphery s p) = c (s.setEflags p.eflags)) (hi : isSubtraction i = false) :
    Behaves i s fun s => branchIf (c s) rel s := by
  refine .completes (if c s then s.jumpRel 2 (sext32 rel) else s.advance 2) id ?_ (.none hi) fun p hp => ?_
  · split <;> exact ⟨rfl, rfl, id⟩
  · have hflags : p.eflags = s.eflags := hp.1 ⟨rel', hjump⟩
    have hsame : c (withPeriphery s p) = c s := by rw [hc, hflags]; rfl
    simp only [branchIf, hsame]
    split <;> rfl

/-- An instruction that always completes, without the periphery. -/
theorem behaves_next {f : State → State} (hkept : Kept s (f s)) (hi : isSubtraction i = false)
    (hf : ∀ p, f (withPeriphery s p) = withPeriphery (f s) p) : Behaves i s fun s => .next (f s) :=
  .completes (f s) id hkept (.none hi) fun p _ => congrArg _ (hf p)

end

/-- A BIOS call emits one event, which the registers determine. -/
theorem biosCall_withPeriphery (vector : Byte) (s : State) :
    ∃ e, ∀ p, biosCall vector (withPeriphery s p) = (withPeriphery s p).emit e := by
  by_cases hv : vector = Config.biosVideoVector
  · by_cases hf : s.reg8 .ah = Config.teletypeFn
    · refine ⟨.teletype (s.reg8 .al) ((s.reg8 .bl).extractLsb' 0 4), fun p => ?_⟩
      rw [biosCall, if_pos hv, biosVideo, if_pos (show (withPeriphery s p).reg8 .ah = _ from hf)]
      rfl
    · refine ⟨.reportUnknownVideoFunction (s.reg8 .ah), fun p => ?_⟩
      rw [biosCall, if_pos hv, biosVideo, if_neg (show ¬ (withPeriphery s p).reg8 .ah = _ from hf)]
      rfl
  · exact ⟨.reportUnknownInterrupt vector, fun p => by rw [biosCall, if_neg hv]⟩

/-- What IN takes from its source depends on the input and the free-value counter only. -/
theorem ioIn8_withPeriphery (s : State) (p : Periphery) (hin : p.input = s.input) (hfree : p.freeIndex = s.freeIndex) :
    ioIn8 (withPeriphery s p) =
      (ioIn8 s).map fun x => (x.1, withPeriphery x.2 { p with input := x.2.input, freeIndex := x.2.freeIndex }) := by
  obtain ⟨w, q, inp, n, es⟩ := p
  obtain rfl : inp = s.input := hin
  obtain rfl : n = s.freeIndex := hfree
  simp only [ioIn8, withPeriphery]
  split
  · next line rest e =>
    cases line with
    | nil => rfl
    | cons c cs => simp only [lineByte]; split <;> rfl
  · next e => cases s.input.after <;> rfl

theorem behaves_inAlDx (s : State) : Behaves .inAlDx s (exec .inAlDx) := by
  by_cases hport : s.port = Config.serialPort
  · have hport' : ∀ p, (withPeriphery s p).port = Config.serialPort := fun _ => hport
    rcases ioIn8_cases s with ⟨e, hl, ha⟩ | ⟨v, lines, n, e⟩
    · exact .stuck rfl (by simp only [exec, execInAlDx, hport, if_true, e]) hport hl ha
    · refine .completes ((s.setReg8 .al v).advance 1) _ ⟨rfl, rfl, id⟩ (.input lines n rfl) fun p hp => ?_
      obtain ⟨hin, hfree⟩ := hp.2 rfl
      have hin' : p.input = s.input := hin
      simp only [exec, execInAlDx, hport', if_true, ioIn8_withPeriphery s p hin hfree, e, Option.map_some, hin']
      rfl
  · exact .halts (.unknownPortRead s.port) (.unknownPortRead _) fun p _ => if_neg hport

theorem behaves_outDxAl (s : State) : Behaves .outDxAl s (exec .outDxAl) := by
  by_cases hport : s.port = Config.serialPort
  · refine .completes (s.advance 1) _ ⟨rfl, rfl, id⟩ (.events [.serialOut (s.reg8 .al)] (.inl rfl)) fun p _ => ?_
    rw [exec, execOutDxAl, ioOut8, if_pos (show (withPeriphery s p).port = _ from hport)]
    rfl
  · refine .completes (s.advance 1) id ⟨rfl, rfl, id⟩ (.none rfl) fun p _ => ?_
    rw [exec, execOutDxAl, ioOut8, if_neg (show ¬ (withPeriphery s p).port = _ from hport)]
    rfl

/-- Every instruction's meaning is of one of the families. -/
theorem exec_behaves (i : Instr) (s : State) : Behaves i s (exec i) := by
  cases i with
  | addRm32R32 dst src => exact behaves_updateRm32 (f := fun s a => add32 a (s.reg src)) (fun _ => rfl) rfl
  | cmpR32Rm32 r o =>
    exact behaves_read32 fun v => .completes (s.advance (1 + o.mlen)) _ ⟨rfl, rfl, id⟩ (.flags (s.reg r) v rfl) fun _ _ => rfl
  | cmpAlImm8 imm =>
    exact .completes (s.advance 2) _ ⟨rfl, rfl, id⟩ (.flags (zext32 (s.reg8 .al)) (zext32 imm) rfl) fun _ _ => rfl
  | cmpEaxImm32 imm => exact .completes (s.advance 5) _ ⟨rfl, rfl, id⟩ (.flags (s.reg .eax) imm rfl) fun _ _ => rfl
  | incR32 r => exact behaves_next ⟨rfl, rfl, id⟩ rfl fun _ => rfl
  | pushR32 r => exact behaves_push (v := fun s => s.reg r) (fun _ => rfl) (fun _ h => h.advance 1) rfl fun _ _ => rfl
  | popR32 r =>
    exact behaves_pop (post := fun v t => (t.setReg r v).advance 1) (fun _ _ h => ⟨h.runState, h.size, h.wf⟩) rfl
      fun _ _ _ => rfl
  | pushImm32 imm => exact behaves_push (v := fun _ => imm) (fun _ => rfl) (fun _ h => h.advance 5) rfl fun _ _ => rfl
  | pushImm8 imm => exact behaves_push (v := fun _ => sext32 imm) (fun _ => rfl) (fun _ h => h.advance 2) rfl fun _ _ => rfl
  | jo rel | jno rel | jc rel | jnc rel | jz rel | jnz rel | js rel | jns rel | jl rel | jle rel =>
    exact behaves_branchIf (rel' := rel) (by simp [conditionalJumps]) (fun _ => rfl) rfl
  | addRm32Imm8 dst imm => exact behaves_updateRm32 (f := fun _ a => add32 a (sext32 imm)) (fun _ => rfl) rfl
  | subRm32Imm8 dst imm =>
    exact behaves_read32 fun a => behaves_write32 (v := fun _ => (sub64 a (sext32 imm)).extractLsb' 0 32) (fun _ => rfl)
      (fun _ h => h.advance (1 + dst.mlen + 1)) (.flags a (sext32 imm) rfl) fun _ _ => rfl
  | movRm8R8 dst src =>
    exact behaves_write8 (v := fun s => s.reg8 src) (fun _ => rfl) (fun _ h => h.advance (1 + dst.mlen)) (.none rfl)
      fun _ _ => rfl
  | movRm32R32 dst src =>
    exact behaves_write32 (v := fun s => s.reg src) (fun _ => rfl) (fun _ h => h.advance (1 + dst.mlen)) (.none rfl)
      fun _ _ => rfl
  | movR8Rm8 dst src =>
    exact behaves_read8 fun v => .completes ((s.setReg8 dst v).advance (1 + src.mlen)) id ⟨rfl, rfl, id⟩ (.none rfl)
      fun _ _ => rfl
  | movR32Rm32 dst src =>
    exact behaves_read32 fun v => .completes ((s.setReg dst v).advance (1 + src.mlen)) id ⟨rfl, rfl, id⟩ (.none rfl)
      fun _ _ => rfl
  | movR8Imm8 dst imm => exact behaves_next ⟨rfl, rfl, id⟩ rfl fun _ => rfl
  | movR32Imm32 dst imm => exact behaves_next ⟨rfl, rfl, id⟩ rfl fun _ => rfl
  | ret =>
    exact behaves_pop (post := fun v t => t.setEip v) (fun _ _ h => ⟨h.runState, h.size, h.wf⟩) rfl fun _ _ _ => rfl
  | movRm32Imm32 ext dst imm =>
    exact behaves_write32 (v := fun _ => imm) (fun _ => rfl) (fun _ h => h.advance (1 + dst.mlen + 4)) (.none rfl)
      fun _ _ => rfl
  | leave =>
    exact behaves_read (get := fun s => s.memory.read32 (s.reg .ebp).toNat) (fun _ => rfl) (read32_cases _ _)
      fun v => .completes (((s.setReg .ebp v).setReg .esp (s.reg .ebp + 4#32)).advance 1) id ⟨rfl, rfl, id⟩ (.none rfl)
        fun _ _ => rfl
  | int vector =>
    obtain ⟨e, he⟩ := biosCall_withPeriphery vector s
    exact .completes (s.advance 2) _ ⟨rfl, rfl, id⟩ (.events [e] (.inr ⟨vector, rfl⟩)) fun p _ => by
      rw [exec, execInt, he]
      rfl
  | callRel32 rel =>
    exact behaves_push (v := fun s => s.nextEip 5) (fun _ => rfl) (fun _ h => ⟨h.runState, h.size, h.wf⟩) rfl fun _ _ => rfl
  | jmpRel32 rel => exact behaves_next ⟨rfl, rfl, id⟩ rfl fun _ => rfl
  | jmpRel8 rel => exact behaves_next ⟨rfl, rfl, id⟩ rfl fun _ => rfl
  | inAlDx => exact behaves_inAlDx s
  | outDxAl => exact behaves_outDxAl s
  | incRm32 dst => exact behaves_updateRm32 (f := fun _ a => inc32 a) (fun _ => rfl) rfl

end Sys2Proof.Proofs.Effect

/-! PROOFS. Rules about every instruction: who writes and reads the flags, who touches the agents (10_state.md R31, R39). -/

namespace Sys2Proof.Proofs.Agents

open Sys2Proof Sys2Proof.Machine Sys2Proof.Proofs.Effect

theorem Alike.refl (i : Instr) (p : Periphery) : Alike i p p := ⟨fun _ => rfl, fun _ => ⟨rfl, rfl⟩⟩

/-- All an instruction that answers a next state can have done: it halted and did nothing else, or it completed, with the effect on
the periphery that its kind allows, and does the same from every periphery it cannot tell apart. -/
theorem exec_next_cases {i : Instr} {s t : State} (h : exec i s = .next t) :
    (∃ r, Raised r ∧ t = s.halt r ∧
      ∀ p, Alike i p (periphery s) → exec i (withPeriphery s p) = .next (withPeriphery t p)) ∨
    (Kept s t ∧ ∃ g, PeripheryEffect i g ∧ periphery t = g (periphery s) ∧
      ∀ p, Alike i p (periphery s) → exec i (withPeriphery s p) = .next (withPeriphery t (g p))) := by
  cases exec_behaves i s with
  | completes t' g hkept hg hf =>
    cases h.symm.trans (hf (periphery s) (Alike.refl i _))
    exact .inr ⟨⟨hkept.runState, hkept.size, hkept.wf⟩, g, hg, rfl, hf⟩
  | halts r hr hf =>
    cases h.symm.trans (hf (periphery s) (Alike.refl i _))
    exact .inl ⟨r, hr, rfl, hf⟩
  | stuck hi hf hport hl ha => cases h.symm.trans hf

/-- The effect on the periphery of an instruction that answers a next state, halted or not. -/
theorem exec_periphery {i : Instr} {s t : State} (h : exec i s = .next t) :
    ∃ g, (g = id ∨ PeripheryEffect i g) ∧ periphery t = g (periphery s) ∧
      ∀ p, Alike i p (periphery s) → exec i (withPeriphery s p) = .next (withPeriphery t (g p)) := by
  rcases exec_next_cases h with ⟨r, _, rfl, hf⟩ | ⟨_, g, hg, hp, hf⟩
  · exact ⟨id, .inl rfl, rfl, hf⟩
  · exact ⟨g, .inr hg, hp, hf⟩

/-! ## The flags (R31) -/

/-- What an instruction leaves in the flags word: what was there, or, if it is a subtraction, the flags of two operands. -/
theorem exec_eflags {i : Instr} {s t : State} (h : exec i s = .next t) :
    t.eflags = s.eflags ∨ isSubtraction i = true ∧ ∃ a b, t.eflags = flagsAfterSub s.eflags a b (sub64 a b) := by
  obtain ⟨g, hg, hp, _⟩ := exec_periphery h
  have hflags : t.eflags = (g (periphery s)).eflags := congrArg Periphery.eflags hp
  rcases hg with rfl | hg
  · exact .inl hflags
  · cases hg with
    | none => exact .inl hflags
    | flags a b hi => exact .inr ⟨hi, a, b, hflags⟩
    | events => exact .inl hflags
    | input => exact .inl hflags

/-- A completed subtraction leaves the flags of two operands, and the same operands whatever the flags were. -/
theorem exec_subtraction {i : Instr} {s t : State} (hi : isSubtraction i = true)
    (h : exec i s = .next t) (ht : t.runState = .running) :
    ∃ a b, t.eflags = flagsAfterSub s.eflags a b (sub64 a b) ∧
      ∀ w, exec i (s.setEflags w) = .next (t.setEflags (flagsAfterSub w a b (sub64 a b))) := by
  have hjump : ¬ ∃ rel, i ∈ conditionalJumps rel := by
    rintro ⟨rel, hmem⟩
    simp only [conditionalJumps, List.mem_cons, List.not_mem_nil, or_false] at hmem
    obtain rfl | rfl | rfl | rfl | rfl | rfl | rfl | rfl | rfl | rfl := hmem <;> cases hi
  rcases exec_next_cases h with ⟨r, _, rfl, _⟩ | ⟨_, g, hg, hp, hf⟩
  · cases ht
  · cases hg with
    | none hnot => cases hi.symm.trans hnot
    | flags a b _ =>
      refine ⟨a, b, congrArg Periphery.eflags hp, fun w => ?_⟩
      have hw := hf { periphery s with eflags := w } ⟨fun hj => absurd hj hjump, fun _ => ⟨rfl, rfl⟩⟩
      have hrest : ({ periphery s with eflags := flagsAfterSub w a b (sub64 a b) } : Periphery) =
          { periphery t with eflags := flagsAfterSub w a b (sub64 a b) } := by rw [hp]
      exact hw.trans (congrArg (fun p => Host.Outcome.next (withPeriphery t p)) hrest)
    | events es hio =>
      rcases hio with rfl | ⟨v, rfl⟩ <;> cases hi
    | input lines n hin => subst hin; cases hi

/-- An instruction that is no conditional jump does the same, apart from the flags, whatever the flags are. -/
theorem exec_setEflags {i : Instr} {s t : State} (w : BitVec 16) (hi : ∀ rel, i ∉ conditionalJumps rel)
    (h : exec i s = .next t) :
    ∃ t', exec i (s.setEflags w) = .next t' ∧ t'.setEflags 0#16 = t.setEflags 0#16 := by
  obtain ⟨g, hg, hp, hf⟩ := exec_periphery h
  refine ⟨_, hf { periphery s with eflags := w } ⟨fun ⟨rel, hj⟩ => absurd hj (hi rel), fun _ => ⟨rfl, rfl⟩⟩, ?_⟩
  have hrest : ({ g { periphery s with eflags := w } with eflags := 0#16 } : Periphery) =
      { periphery t with eflags := 0#16 } := by
    rw [hp]
    rcases hg with rfl | hg
    · rfl
    · cases hg <;> rfl
  exact congrArg (withPeriphery t) hrest

/-- Each conditional jump goes elsewhere with other flags: from reset, where no flag is set. -/
theorem conditionalJump_reads_flags {i : Instr} (h : i ∈ conditionalJumps 0x10#8) :
    ∃ (s t t' : State) (w : BitVec 16), exec i s = .next t ∧ exec i (s.setEflags w) = .next t' ∧ t.eip ≠ t'.eip := by
  simp only [conditionalJumps, List.mem_cons, List.not_mem_nil, or_false] at h
  obtain rfl | rfl | rfl | rfl | rfl | rfl | rfl | rfl | rfl | rfl := h
  · exact ⟨.reset, _, _, FlagKind.overflow.mask, rfl, rfl, by decide⟩
  · exact ⟨.reset, _, _, FlagKind.overflow.mask, rfl, rfl, by decide⟩
  · exact ⟨.reset, _, _, FlagKind.carry.mask, rfl, rfl, by decide⟩
  · exact ⟨.reset, _, _, FlagKind.carry.mask, rfl, rfl, by decide⟩
  · exact ⟨.reset, _, _, FlagKind.zero.mask, rfl, rfl, by decide⟩
  · exact ⟨.reset, _, _, FlagKind.zero.mask, rfl, rfl, by decide⟩
  · exact ⟨.reset, _, _, FlagKind.sign.mask, rfl, rfl, by decide⟩
  · exact ⟨.reset, _, _, FlagKind.sign.mask, rfl, rfl, by decide⟩
  · exact ⟨.reset, _, _, FlagKind.sign.mask, rfl, rfl, by decide⟩
  · exact ⟨.reset, _, _, FlagKind.sign.mask, rfl, rfl, by decide⟩

/-- Settles O26: writers by `exec_eflags` and `exec_subtraction`, readers by `exec_setEflags` and `conditionalJump_reads_flags`. -/
theorem flagsHaveFourWritersAndTenReaders : Obligations.FlagsHaveFourWritersAndTenReaders := by
  unfold Obligations.FlagsHaveFourWritersAndTenReaders
  refine ⟨fun i s t hi h => ?_, fun i s t t' w hi _ h ht h' k => ?_, fun i s t w hi h => exec_setEflags w hi h,
    fun i hi => conditionalJump_reads_flags hi⟩
  · rcases exec_eflags h with hsame | ⟨hsub, _⟩
    · exact hsame
    · cases hi.symm.trans hsub
  · obtain ⟨a, b, hflags, hw⟩ := exec_subtraction hi h ht
    cases h'.symm.trans (hw w)
    rw [State.flag, State.flag, hflags, State.setEflags_eflags, isSet_flagsAfterSub, isSet_flagsAfterSub]

/-! ## The agents (R39, R244 to R246) -/

/-- Settles O27: the effect on the periphery, kind by kind. -/
theorem onlyIoInstructionsTouchTheAgents : Obligations.OnlyIoInstructionsTouchTheAgents := by
  unfold Obligations.OnlyIoInstructionsTouchTheAgents
  intro i s t h
  obtain ⟨g, hg, hp, _⟩ := exec_periphery h
  have hquiet : t.quiet = (g (periphery s)).quiet := congrArg Periphery.quiet hp
  have hinput : t.input = (g (periphery s)).input := congrArg Periphery.input hp
  have hfree : t.freeIndex = (g (periphery s)).freeIndex := congrArg Periphery.freeIndex hp
  have hevents : t.events = (g (periphery s)).events := congrArg Periphery.events hp
  rcases hg with rfl | hg
  · exact ⟨hquiet, fun _ => ⟨hinput, hfree⟩, fun _ _ => hevents⟩
  · cases hg with
    | none => exact ⟨hquiet, fun _ => ⟨hinput, hfree⟩, fun _ _ => hevents⟩
    | flags => exact ⟨hquiet, fun _ => ⟨hinput, hfree⟩, fun _ _ => hevents⟩
    | events es hio =>
      refine ⟨hquiet, fun _ => ⟨hinput, hfree⟩, fun hout hint => ?_⟩
      rcases hio with hi | ⟨v, hi⟩
      · exact absurd hi hout
      · exact absurd hi (hint v)
    | input lines n hin => exact ⟨hquiet, fun hnot => absurd hin hnot, fun _ _ => hevents⟩

/-! ## QUIET and the events (R14, R18, R135) -/

/-- Whatever QUIET and the events are, an effect on the periphery leaves QUIET and appends the same events. -/
theorem periphery_effect_log {i : Instr} {g : Periphery → Periphery} (hg : g = id ∨ PeripheryEffect i g) :
    ∃ new, (∀ p, (g p).events = p.events ++ new) ∧
      ∀ p q es, g { p with quiet := q, events := es } = { g p with quiet := q, events := es ++ new } := by
  rcases hg with rfl | hg
  · exact ⟨[], by simp⟩
  · cases hg with
    | none => exact ⟨[], by simp⟩
    | flags => exact ⟨[], by simp⟩
    | events new => exact ⟨new, fun _ => rfl, fun _ _ _ => rfl⟩
    | input => exact ⟨[], by simp⟩

/-- An instruction appends events, and the same ones whatever QUIET and the events before it are. -/
theorem exec_log {i : Instr} {s t : State} (h : exec i s = .next t) :
    ∃ new, t.events = s.events ++ new ∧
      ∀ q es, exec i { s with quiet := q, events := es } = .next { t with quiet := q, events := es ++ new } := by
  obtain ⟨g, hg, hp, hf⟩ := exec_periphery h
  obtain ⟨new, hevents, hnew⟩ := periphery_effect_log hg
  refine ⟨new, (congrArg Periphery.events hp).trans (hevents _), fun q es => ?_⟩
  have hlog := hf { periphery s with quiet := q, events := es } ⟨fun _ => rfl, fun _ => ⟨rfl, rfl⟩⟩
  rw [hnew, ← hp] at hlog
  exact hlog

end Sys2Proof.Proofs.Agents

/-! PROOFS. What every step keeps, and how a run ends (10_state.md R29 to R35; 40_execution_core.md R120 to R123, R132;
60_exceptions.md R263; 70_reset_and_hazards.md R290). -/

namespace Sys2Proof.Proofs.Steps

open Sys2Proof Sys2Proof.Machine Sys2Proof.Proofs.Effect Sys2Proof.Proofs.Agents

/-! ## What a step can do -/

/-- `s` after a step that halts with `r` and does nothing else: the trace, the run state and the report (R123, R263). -/
def haltedBy (s : State) (r : HaltReason) : State :=
  { s with runState := .halted r, events := s.traced.events ++ [.haltReport r s.regs s.eip] }

theorem endStep_halt_traced (s : State) (r : HaltReason) : (s.traced.halt r).endStep = haltedBy s r := by
  rw [endStep_halted _ r rfl]
  rcases traced_cases s with h | ⟨op, h⟩ <;> rw [haltedBy, h] <;> rfl

/-- All a step that answers a next state can have done: it was halted before; it halts, by the fetch or by the instruction, and does
nothing else; or the instruction completes. -/
theorem step_cases {s t : State} (h : step s = .next t) :
    ((∃ r, s.runState = .halted r) ∧ t = s) ∨
    (s.runState = .running ∧ ∃ r, (s.fetched = .error r ∨ Raised r) ∧ t = haltedBy s r) ∨
    (s.runState = .running ∧ ∃ i u, exec i s.traced = .next u ∧ Kept s.traced u ∧ u.runState = .running ∧ t = u.endStep) := by
  rcases step_next_cases h with hhalted | ⟨hrun, r, hf, rfl⟩ | ⟨hrun, i, u, _, he, rfl⟩
  · exact .inl hhalted
  · exact .inr (.inl ⟨hrun, r, .inl hf, endStep_halt_traced s r⟩)
  · have hrun' : s.traced.runState = .running := by
      obtain ⟨_, _, _, _, hstate, _⟩ := traced_frame s
      rw [hstate, hrun]
    rcases exec_next_cases he with ⟨r, hr, rfl, _⟩ | ⟨hkept, _⟩
    · exact .inr (.inl ⟨hrun, r, .inr hr, endStep_halt_traced s r⟩)
    · exact .inr (.inr ⟨hrun, i, u, he, hkept, hkept.runState.trans hrun', rfl⟩)

/-- How a step ends after a completed instruction (R122). -/
theorem endStep_completed {u : State} (hu : u.runState = .running) :
    (u.eip = 0#32 → u.endStep = { u with runState := .halted .normalEnd, events := u.events ++ [.haltReport .normalEnd u.regs 0#32] }) ∧
    (u.eip ≠ 0#32 → u.endStep = u) := by
  rcases endStep_running u hu with ⟨hne, e⟩ | ⟨heq, e⟩
  · exact ⟨fun h => absurd h hne, fun _ => e⟩
  · refine ⟨fun h => ?_, fun h => absurd heq h⟩
    rw [e]
    exact congrArg (fun v => (u.halt .normalEnd).emit (.haltReport .normalEnd u.regs v)) h

/-- Settles O17: the step is the end of the completed instruction. -/
theorem completedInstructionAtZeroEndsTheRun : Obligations.CompletedInstructionAtZeroEndsTheRun := by
  unfold Obligations.CompletedInstructionAtZeroEndsTheRun
  intro s t i hrun hf he ht
  have hstep : step s = .next t.endStep := by simp only [step, hrun, hf, he, endOutcome]
  obtain ⟨hzero, hother⟩ := endStep_completed ht
  exact ⟨fun h => by rw [hstep, hzero h], fun h => by rw [hstep, hother h]⟩

/-- Settles O18: only the third case of a step leaves a running state, and there the sentinel was tested. -/
theorem noStepLeavesARunningMachineAtZero : Obligations.NoStepLeavesARunningMachineAtZero := by
  unfold Obligations.NoStepLeavesARunningMachineAtZero
  intro s t h ht hzero
  rcases step_cases h with ⟨⟨r, hr⟩, rfl⟩ | ⟨_, r, _, rfl⟩ | ⟨_, i, u, _, _, hu, rfl⟩
  · cases ht.symm.trans hr
  · cases ht
  · obtain ⟨hend, _⟩ := endStep_completed hu
    obtain ⟨_, heip, _⟩ := endStep_frame u
    rw [hend (heip.symm.trans hzero)] at ht
    cases ht

/-- The reason a completed instruction's step halts with is NormalEnd. -/
theorem endStep_halts_normally {u : State} {r : HaltReason} (hu : u.runState = .running) (h : u.endStep.runState = .halted r) :
    r = .normalEnd := by
  obtain ⟨hzero, hother⟩ := endStep_completed hu
  by_cases he : u.eip = 0#32
  · rw [hzero he] at h
    cases h
    rfl
  · rw [hother he] at h
    cases hu.symm.trans h

/-- Settles O19: the second case of a step is the only one that halts with another reason than NormalEnd. -/
theorem failingHaltsChangeNothing : Obligations.FailingHaltsChangeNothing := by
  unfold Obligations.FailingHaltsChangeNothing
  intro s t r hrun h ht hr
  rcases step_cases h with ⟨⟨r', hr'⟩, _⟩ | ⟨_, r', _, rfl⟩ | ⟨_, i, u, _, _, hu, rfl⟩
  · cases hrun.symm.trans hr'
  · cases ht
    rfl
  · exact absurd (endStep_halts_normally hu ht) hr

/-- No decoding failure is the invalid register index. -/
theorem fetched_ne_invalidRegisterIndex {s : State} {k : Nat} : s.fetched ≠ .error (.invalidRegisterIndex k) := by
  have hs := RoundTrip.sound_decode s.instrBytes
  intro h
  unfold State.fetched at h
  split at h
  · cases h
  · next e hd =>
    rw [hd] at hs
    cases hs with
    | error hne =>
      cases e with
      | badRegisterIndex j => exact hne j rfl
      | _ => cases h

/-- Settles O21: a step halts with what the fetch or the instruction raises, or normally. -/
theorem noStepReportsAnInvalidRegisterIndex : Obligations.NoStepReportsAnInvalidRegisterIndex := by
  unfold Obligations.NoStepReportsAnInvalidRegisterIndex
  intro s t k hrun h ht
  rcases step_cases h with ⟨⟨r', hr'⟩, _⟩ | ⟨_, r', hr', rfl⟩ | ⟨_, i, u, _, _, hu, rfl⟩
  · cases hrun.symm.trans hr'
  · cases ht
    rcases hr' with hf | hraised
    · exact fetched_ne_invalidRegisterIndex hf
    · cases hraised
  · cases endStep_halts_normally hu ht

/-- Settles O20: the fetch fails, or the instruction does what `exec_behaves` says. -/
theorem stepCompletesUnlessInputNeverAnswers : Obligations.StepCompletesUnlessInputNeverAnswers := by
  unfold Obligations.StepCompletesUnlessInputNeverAnswers
  intro s
  cases hrun : s.runState with
  | halted r => exact .inl ⟨s, by simp only [step, hrun]⟩
  | running =>
    cases hf : s.fetched with
    | error r => exact .inl ⟨_, by simp only [step, hrun, hf]; rfl⟩
    | ok i =>
      have hstep : step s = endOutcome (exec i s.traced) := by simp only [step, hrun, hf]
      rw [hstep]
      cases exec_behaves i s.traced with
      | completes t g _ _ he => exact .inl ⟨_, congrArg endOutcome (he (periphery s.traced) (Alike.refl i _))⟩
      | halts r _ he => exact .inl ⟨_, congrArg endOutcome (he (periphery s.traced) (Alike.refl i _))⟩
      | stuck hi he hport hl ha =>
        obtain ⟨hregs, _, _, _, _, _, hinput, _⟩ := traced_frame s
        rw [hinput] at hl ha
        have hport' : s.traced.port = s.port := by rw [State.port, State.port, State.reg_congr hregs]
        exact .inr ⟨by rw [he]; rfl, rfl, by rw [hi], hport'.symm.trans hport, hl, ha⟩

/-- Settles O16: a step from a halted state answers it, so every number of them does. -/
theorem haltedIsAbsorbing : Obligations.HaltedIsAbsorbing := by
  unfold Obligations.HaltedIsAbsorbing
  intro n s r hr
  induction n with
  | zero => rfl
  | succ n ih =>
    have hstep : Sys2Proof.core.step s = .next s := by
      show step s = .next s
      simp only [step, hr]
    simp only [Host.Core.run, hstep, ih]

/-! ## Events (R18, R64) -/

theorem events_prefix_traced (s : State) : s.events <+: s.traced.events := by
  rcases traced_cases s with h | ⟨op, h⟩ <;> rw [h]
  exact List.prefix_append _ _

theorem events_prefix_endStep {u : State} (hu : u.runState = .running) : u.events <+: u.endStep.events := by
  obtain ⟨hzero, hother⟩ := endStep_completed hu
  by_cases he : u.eip = 0#32
  · rw [hzero he]
    exact List.prefix_append _ _
  · rw [hother he]

/-- Settles O28: the trace, the instruction and the end of the step each append. -/
theorem eventsOnlyGrow : Obligations.EventsOnlyGrow := by
  unfold Obligations.EventsOnlyGrow
  intro s t h
  have hprefix : s.events <+: t.events := by
    rcases step_cases h with ⟨_, rfl⟩ | ⟨_, r, _, rfl⟩ | ⟨_, i, u, he, _, hu, rfl⟩
    · exact List.prefix_refl _
    · exact (events_prefix_traced s).trans (List.prefix_append _ _)
    · obtain ⟨new, hnew, _⟩ := exec_log he
      exact (events_prefix_traced s).trans (List.IsPrefix.trans ⟨new, hnew.symm⟩ (events_prefix_endStep hu))
  obtain ⟨es, hes⟩ := hprefix
  exact ⟨es, hes.symm⟩

/-! ## QUIET (R14, R15, R135) -/

/-- The events of a run that are no traces. -/
def withoutTraces (es : List Event) : List Event := es.filter fun e => !isTrace e

/-- `s'` is `s` with QUIET at `q` and the same events apart from traces. -/
def TraceTwin (q : Bool) (s s' : State) : Prop :=
  ∃ es, s' = { s with quiet := q, events := es } ∧ withoutTraces es = withoutTraces s.events

theorem withoutTraces_append (es new : List Event) : withoutTraces (es ++ new) = withoutTraces es ++ withoutTraces new :=
  List.filter_append es new

theorem withoutTraces_traced (s : State) : withoutTraces s.traced.events = withoutTraces s.events := by
  rcases traced_cases s with h | ⟨op, h⟩ <;> rw [h]
  rw [State.emit_events, withoutTraces_append]
  exact List.append_nil _

theorem traceTwin_traced {q : Bool} {s s' : State} (h : TraceTwin q s s') : TraceTwin q s.traced s'.traced := by
  have hs := withoutTraces_traced s
  have hs' := withoutTraces_traced s'
  obtain ⟨es, rfl, hes⟩ := h
  refine ⟨_, ?_, hs'.trans (hes.trans hs.symm)⟩
  rcases traced_cases s with e | ⟨op, e⟩ <;>
    rcases traced_cases { s with quiet := q, events := es } with e' | ⟨op', e'⟩ <;> rw [e, e'] <;> rfl

theorem traceTwin_exec {q : Bool} {i : Instr} {s s' t : State} (h : TraceTwin q s s') (he : exec i s = .next t) :
    ∃ t', exec i s' = .next t' ∧ TraceTwin q t t' := by
  obtain ⟨es, rfl, hes⟩ := h
  obtain ⟨new, hnew, hlog⟩ := exec_log he
  exact ⟨_, hlog q es, es ++ new, rfl, by rw [hnew, withoutTraces_append, withoutTraces_append, hes]⟩

theorem traceTwin_halt {q : Bool} {s s' : State} (h : TraceTwin q s s') (r : HaltReason) : TraceTwin q (s.halt r) (s'.halt r) := by
  obtain ⟨es, rfl, hes⟩ := h
  exact ⟨es, rfl, hes⟩

theorem traceTwin_emit {q : Bool} {s s' : State} (h : TraceTwin q s s') (e : Event) : TraceTwin q (s.emit e) (s'.emit e) := by
  obtain ⟨es, rfl, hes⟩ := h
  exact ⟨es ++ [e], rfl, by rw [State.emit_events, withoutTraces_append, withoutTraces_append, hes]⟩

theorem traceTwin_endStep {q : Bool} {s s' : State} (h : TraceTwin q s s') : TraceTwin q s.endStep s'.endStep := by
  have hsame : s'.runState = s.runState ∧ s'.eip = s.eip ∧ s'.regs = s.regs := by
    obtain ⟨es, rfl, _⟩ := h
    exact ⟨rfl, rfl, rfl⟩
  obtain ⟨hrun, heip, hregs⟩ := hsame
  cases hr : s.runState with
  | running =>
    rcases endStep_running s hr with ⟨hne, e⟩ | ⟨heq, e⟩ <;>
      rcases endStep_running s' (hrun.trans hr) with ⟨hne', e'⟩ | ⟨heq', e'⟩
    · rwa [e, e']
    · exact absurd (heip.symm.trans heq') hne
    · exact absurd (heip.trans heq) hne'
    · rw [e, e', hregs, heip]
      exact traceTwin_emit (traceTwin_halt h _) _
  | halted r =>
    rw [endStep_halted s r hr, endStep_halted s' r (hrun.trans hr), hregs, heip]
    exact traceTwin_emit h _

theorem traceTwin_step {q : Bool} {s s' t : State} (h : TraceTwin q s s') (hs : step s = .next t) :
    ∃ t', step s' = .next t' ∧ TraceTwin q t t' := by
  have hsame : s'.runState = s.runState ∧ s'.fetched = s.fetched := by
    obtain ⟨es, rfl, _⟩ := h
    exact ⟨rfl, rfl⟩
  obtain ⟨hrun', hf'⟩ := hsame
  rcases step_next_cases hs with ⟨⟨r, hr⟩, rfl⟩ | ⟨hrun, r, hf, rfl⟩ | ⟨hrun, i, u, hf, he, rfl⟩
  · exact ⟨s', by simp only [step, hrun', hr], h⟩
  · exact ⟨_, by simp only [step, hrun', hrun, hf', hf], traceTwin_endStep (traceTwin_halt (traceTwin_traced h) r)⟩
  · obtain ⟨u', he', hu⟩ := traceTwin_exec (traceTwin_traced h) he
    exact ⟨_, by simp only [step, hrun', hrun, hf', hf, he']; rfl, traceTwin_endStep hu⟩

/-- Settles O29: a step keeps two states twins, and `s` with another QUIET is a twin of `s`. -/
theorem quietOnlySuppressesTraces : Obligations.QuietOnlySuppressesTraces := by
  unfold Obligations.QuietOnlySuppressesTraces
  intro s t q h
  obtain ⟨t', hstep, es, rfl, hes⟩ := traceTwin_step (q := q) (s' := { s with quiet := q }) ⟨s.events, rfl, rfl⟩ h
  exact ⟨_, hstep, rfl, rfl, hes⟩

/-! ## The invariants -/

/-- What a step leaves in the flags word: what was there, or the flags of two operands. -/
theorem step_eflags {s t : State} (h : step s = .next t) :
    t.eflags = s.eflags ∨ ∃ a b, t.eflags = flagsAfterSub s.eflags a b (sub64 a b) := by
  rcases step_cases h with ⟨_, rfl⟩ | ⟨_, r, _, rfl⟩ | ⟨_, i, u, he, _, _, rfl⟩
  · exact .inl rfl
  · exact .inl rfl
  · obtain ⟨_, _, htraced, _⟩ := traced_frame s
    obtain ⟨_, _, hend, _⟩ := endStep_frame u
    rw [hend, ← htraced]
    rcases exec_eflags he with hsame | ⟨_, hsub⟩
    · exact .inl hsame
    · exact .inr hsub

/-- A step keeps the size of memory and its canonical form. -/
theorem step_memory {s t : State} (h : step s = .next t) :
    t.memory.size = s.memory.size ∧ (s.memory.wf = true → t.memory.wf = true) := by
  rcases step_cases h with ⟨_, rfl⟩ | ⟨_, r, _, rfl⟩ | ⟨_, i, u, _, hkept, _, rfl⟩
  · exact ⟨rfl, id⟩
  · exact ⟨rfl, id⟩
  · obtain ⟨_, _, _, htraced, _⟩ := traced_frame s
    obtain ⟨_, _, _, hend, _⟩ := endStep_frame u
    rw [hend, ← htraced]
    exact ⟨hkept.size, hkept.wf⟩

/-- Settles O4: memory by `step_memory`, and a subtraction keeps the unmodelled flag bits. -/
theorem stepKeepsTheMachineInvariant : Obligations.StepKeepsTheMachineInvariant := by
  unfold Obligations.StepKeepsTheMachineInvariant
  intro s t hinv h
  obtain ⟨hwf, hmin, hmax, hflags⟩ := hinv
  obtain ⟨hsize, hkeepwf⟩ := step_memory h
  refine ⟨⟨hkeepwf hwf, by rwa [hsize], by rwa [hsize], ?_⟩, hsize⟩
  rcases step_eflags h with e | ⟨a, b, e⟩
  · rwa [e]
  · rw [e, flagsAfterSub_reserved, hflags]

/-- The flag words that four flags can leave, when Zero excludes Carry and Overflow and comes with Sign, and Overflow makes Carry
the complement of Sign (95_test_vectors.md V1). -/
theorem setFlags_reachable : ∀ c z s o : Bool, (z = true → c = false ∧ s = true ∧ o = false) → (o = true → c = !s) →
    setFlag (setFlag (setFlag (setFlag 0#16 .carry c) .zero z) .sign s) .overflow o ∈ reachableFlagWords := by decide

theorem reachableFlagWords_reserved : ∀ w ∈ reachableFlagWords, w &&& ~~~flagsMask = 0#16 := by
  simp [reachableFlagWords, flagsMask]

/-- A subtraction keeps nothing of a flags word but the unmodelled bits. -/
theorem flagsAfterSub_eq {w : BitVec 16} (hw : w &&& ~~~flagsMask = 0#16) (a b : Word) (r : BitVec 64) :
    flagsAfterSub w a b r = flagsAfterSub 0#16 a b r := by
  refine eflags_ext _ _ ?_ ?_ fun k => ?_
  · rw [flagsAfterSub_reserved, hw]
  · rw [flagsAfterSub_reserved, BitVec.zero_and]
  · rw [isSet_flagsAfterSub, isSet_flagsAfterSub]

/-- A subtraction of equal numbers has no borrow, no overflow and a difference of zero. -/
theorem flags_of_equal {a b : Word} (h : subZero (sub64 a b) = true) :
    subCarry (sub64 a b) = false ∧ subSign (sub64 a b) = true ∧ subOverflow a b (sub64 a b) = false := by
  obtain rfl := (subZero_iff a b).mp h
  refine ⟨?_, (subSign_iff a a).mpr (by simp), by simp [subOverflow]⟩
  rw [← Bool.not_eq_true, subCarry_iff]
  exact lt_irrefl _

/-- A signed difference out of range has a borrow exactly when its top bit is set. -/
theorem flags_of_overflow {a b : Word} (h : subOverflow a b (sub64 a b) = true) :
    subCarry (sub64 a b) = !subSign (sub64 a b) := by
  have hcarry : subCarry (sub64 a b) = true ↔ a.toNat < b.toNat := subCarry_iff a b
  have hsign : subSign (sub64 a b) = false ↔ 2 ^ 31 ≤ (a - b).toNat := by
    rw [subSign, sub64_bit31, Bool.not_eq_false', BitVec.msb_eq_decide, decide_eq_true_eq]
  have hborrow : a.toNat < b.toNat ↔ 2 ^ 31 ≤ (a - b).toNat := by
    have hover := (subOverflow_iff a b).mp h
    have ha := a.isLt
    have hb := b.isLt
    simp only [BitVec.toInt_eq_toNat_cond, BitVec.toNat_sub] at hover ⊢
    split_ifs at hover <;> omega
  rw [Bool.eq_iff_iff, hcarry, hborrow, ← hsign, Bool.not_eq_true']

/-- Settles O5: the flags of two operands are related as `setFlags_reachable` asks. -/
theorem stepKeepsTheReachableFlagWords : Obligations.StepKeepsTheReachableFlagWords := by
  unfold Obligations.StepKeepsTheReachableFlagWords
  intro s t hs h
  rcases step_eflags h with e | ⟨a, b, e⟩
  · rwa [e]
  · rw [e, flagsAfterSub_eq (reachableFlagWords_reserved s.eflags hs)]
    exact setFlags_reachable _ _ _ _ flags_of_equal flags_of_overflow

/-! ## Reset (R40, R290) -/

theorem boot_memory {memSize : Nat} (image : Vector Byte 512) :
    let m := ({ size := memSize, cells := [] } : Memory).setBytes Config.loadAddr image.toList
    m.wf = true ∧ m.size = memSize ∧
    ∀ a, m.byte a = if 0x7C00 ≤ a ∧ a < 0x7E00 ∧ a < memSize then (image.toList[a - 0x7C00]?).getD 0#8 else 0#8 := by
  obtain ⟨hwf, hsize, hbyte⟩ :=
    Memory.setBytes_spec image.toList ({ size := memSize, cells := [] } : Memory) Config.loadAddr rfl
  refine ⟨hwf, hsize, fun a => ?_⟩
  rw [hbyte, Vector.length_toList]
  rfl

theorem reset_reg_zero (initEsp : Word) (r : Reg) (h : r ≠ .esp) : (Regs.reset initEsp).get r = 0#32 := by
  cases r with
  | esp => exact absurd rfl h
  | _ => rfl

/-- Settles O2: the image is loaded by `setBytes`, over memory in which no cell is listed. -/
theorem bootLoadsTheImageVerbatim : Obligations.BootLoadsTheImageVerbatim := by
  unfold Obligations.BootLoadsTheImageVerbatim
  intro memSize initEsp image quiet input hmin s hs
  subst hs
  obtain ⟨_, hsize, hbyte⟩ := boot_memory (memSize := memSize) image
  refine ⟨rfl, rfl, rfl, reset_reg_zero initEsp, rfl, hsize, rfl, rfl, rfl, fun k hk => ?_, fun a ha => ?_⟩
  · rw [State.boot, hbyte, if_pos (by omega), Nat.add_sub_cancel_left]
    simp [hk]
  · rw [State.boot, hbyte, if_neg (by omega)]

/-- Settles O1: the fields of the reset state, register by register. -/
theorem resetStateHoldsTheResetValues : Obligations.ResetStateHoldsTheResetValues := by
  unfold Obligations.ResetStateHoldsTheResetValues
  exact ⟨rfl, rfl, rfl, reset_reg_zero Config.resetEsp, rfl, rfl, rfl, fun _ => rfl⟩

/-- Settles O3: MEM_SIZE is in its range, no cell is listed and no flag is set. -/
theorem resetMeetsTheInvariants : Obligations.ResetMeetsTheInvariants := by
  unfold Obligations.ResetMeetsTheInvariants MachineInv
  decide

/-- Settles O6: by induction on the run, with O4, O5 and O18 for its steps. -/
theorem everyReachableStateMeetsTheInvariants : Obligations.EveryReachableStateMeetsTheInvariants := by
  unfold Obligations.EveryReachableStateMeetsTheInvariants
  intro s h
  induction h with
  | boot memSize initEsp image quiet input hmin hmax =>
    obtain ⟨hwf, hsize, _⟩ := boot_memory (memSize := memSize) image
    have hflags : (0#16 : BitVec 16) &&& ~~~flagsMask = 0#16 := by decide
    have hzero : (0#16 : BitVec 16) ∈ reachableFlagWords := by decide
    have heip : Config.initEip ≠ 0#32 := by decide
    exact ⟨⟨hwf, hsize.symm ▸ hmin, hsize.symm ▸ hmax, hflags⟩, hzero, fun _ => heip⟩
  | step s t _ hst ih =>
    obtain ⟨hinv, hflags, _⟩ := ih
    exact ⟨(stepKeepsTheMachineInvariant s t hinv hst).1, stepKeepsTheReachableFlagWords s t hflags hst,
      noStepLeavesARunningMachineAtZero s t hst⟩

end Sys2Proof.Proofs.Steps

/-! PROOFS. What an operand access does when the operand lies within memory, and when it does not (40_execution_core.md R126 to
R129, 20_memory.md R56), and the frames of the updates the instructions are made of. -/

namespace Sys2Proof.Proofs.Operands

open Sys2Proof Sys2Proof.Machine

/-! ## Accesses within memory -/

theorem not_rm32InMemory {s : State} {m : MemForm} (h : s.memory.size < (effAddr s m).toNat + 4) : ¬ Rm32InMemory s (.mem m) :=
  Nat.not_le_of_lt h

theorem not_rm8InMemory {s : State} {m : MemForm} (h : s.memory.size < (effAddr s m).toNat + 1) : ¬ Rm8InMemory s (.mem m) :=
  Nat.not_le_of_lt h

theorem getRm32_ok {s : State} {o : RM32} (h : Rm32InMemory s o) : getRm32 s o = .ok (rm32Value s o) := by
  rcases getRm32_cases s o with ⟨_, e⟩ | ⟨m, rfl, hout, _⟩
  · exact e
  · exact absurd h (not_rm32InMemory hout)

theorem getRm8_ok {s : State} {o : RM8} (h : Rm8InMemory s o) : getRm8 s o = .ok (rm8Value s o) := by
  rcases getRm8_cases s o with ⟨_, e⟩ | ⟨m, rfl, hout, _⟩
  · exact e
  · exact absurd h (not_rm8InMemory hout)

theorem setRm32_ok {s : State} {o : RM32} (v : Word) (hw : s.memory.wf = true) (h : Rm32InMemory s o) :
    ∃ t, setRm32 s o v = .ok t ∧ SameButRegsAndBytes s t ∧ Rm32Becomes o v s t := by
  rcases setRm32_cases s o v with ⟨_, t, e, hsame, hbecomes⟩ | ⟨m, rfl, hout, _⟩
  · exact ⟨t, e, hsame, hbecomes hw⟩
  · exact absurd h (not_rm32InMemory hout)

theorem setRm8_ok {s : State} {o : RM8} (v : Byte) (hw : s.memory.wf = true) (h : Rm8InMemory s o) :
    ∃ t, setRm8 s o v = .ok t ∧ SameButRegsAndBytes s t ∧ Rm8Becomes o v s t := by
  rcases setRm8_cases s o v with ⟨_, t, e, hsame, hbecomes⟩ | ⟨m, rfl, hout, _⟩
  · exact ⟨t, e, hsame, hbecomes hw⟩
  · exact absurd h (not_rm8InMemory hout)

/-! ## Accesses beyond memory -/

theorem getRm32_error {s : State} {m : MemForm} (h : s.memory.size < (effAddr s m).toNat + 4) :
    getRm32 s (.mem m) = .error (.outOfBounds (effAddr s m).toNat) :=
  s.memory.read32_error _ h

theorem getRm8_error {s : State} {m : MemForm} (h : s.memory.size < (effAddr s m).toNat + 1) :
    getRm8 s (.mem m) = .error (.outOfBounds (effAddr s m).toNat) :=
  s.memory.read8_error _ h

theorem setRm32_error {s : State} {m : MemForm} (v : Word) (h : s.memory.size < (effAddr s m).toNat + 4) :
    setRm32 s (.mem m) v = .error (.outOfBounds (effAddr s m).toNat) := by
  rcases setRm32_cases s (.mem m) v with ⟨hin, _⟩ | ⟨m', hm, _, e⟩
  · exact absurd hin (not_rm32InMemory h)
  · cases hm
    exact e

theorem setRm8_error {s : State} {m : MemForm} (v : Byte) (h : s.memory.size < (effAddr s m).toNat + 1) :
    setRm8 s (.mem m) v = .error (.outOfBounds (effAddr s m).toNat) := by
  rcases setRm8_cases s (.mem m) v with ⟨hin, _⟩ | ⟨m', hm, _, e⟩
  · exact absurd hin (not_rm8InMemory h)
  · cases hm
    exact e

/-- Settles O57: a 32-bit operand's access fails in its read, or in its write when the instruction only writes; an 8-bit one's in
its only access. -/
theorem operandBeyondMemoryHalts : Obligations.OperandBeyondMemoryHalts := by
  unfold Obligations.OperandBeyondMemoryHalts
  intro s m r r8 ext imm8 imm32 i
  refine ⟨fun h hi => ?_, fun h hi => ?_⟩ <;> simp only [List.mem_cons, List.not_mem_nil, or_false] at hi
  · have hget := getRm32_error h
    have hset := fun v => setRm32_error v h
    obtain rfl | rfl | rfl | rfl | rfl | rfl | rfl | rfl := hi
    · simp only [exec, execAddRm32R32, updateRm32, hget]; rfl
    · simp only [exec, execCmpR32Rm32, hget]; rfl
    · simp only [exec, execAddRm32Imm8, updateRm32, hget]; rfl
    · simp only [exec, execSubRm32Imm8, hget]; rfl
    · simp only [exec, execIncRm32, updateRm32, hget]; rfl
    · simp only [exec, execMovRm32R32, hset]; rfl
    · simp only [exec, execMovR32Rm32, hget]; rfl
    · simp only [exec, execMovRm32Imm32, hset]; rfl
  · obtain rfl | rfl := hi
    · simp only [exec, execMovRm8R8, setRm8_error _ h]; rfl
    · simp only [exec, execMovR8Rm8, getRm8_error h]; rfl

/-! ## Frames -/

theorem sameRegsBut_setReg (s : State) (r : Reg) (v : Word) : SameRegsBut [r] s (s.setReg r v) := by
  intro q hq
  rw [State.reg_setReg, if_neg (by simpa using hq)]

theorem reg_setReg_same (s : State) (r : Reg) (v : Word) : (s.setReg r v).reg r = v := by
  rw [State.reg_setReg, if_pos rfl]

theorem reg_setReg_other {r q : Reg} (h : q ≠ r) (s : State) (v : Word) : (s.setReg r v).reg q = s.reg q := by
  rw [State.reg_setReg, if_neg h]

theorem sameMemory_of_eq {s t : State} (h : t.memory = s.memory) : SameMemory s t :=
  ⟨congrArg Memory.size h, fun k => congrArg (Memory.byte · k) h⟩

/-- What an operand becomes is a matter of registers and memory only. -/
theorem rm32Becomes_congr {o : RM32} {v : Word} {s t u : State} (hregs : u.regs = t.regs) (hmem : u.memory = t.memory)
    (h : Rm32Becomes o v s t) : Rm32Becomes o v s u := by
  obtain ⟨regs, eip, eflags, memory, runState, quiet, input, freeIndex, events⟩ := u
  subst hregs hmem
  cases o with
  | reg r => exact h
  | mem m => exact h

theorem rm8Becomes_congr {o : RM8} {v : Byte} {s t u : State} (hregs : u.regs = t.regs) (hmem : u.memory = t.memory)
    (h : Rm8Becomes o v s t) : Rm8Becomes o v s u := by
  obtain ⟨regs, eip, eflags, memory, runState, quiet, input, freeIndex, events⟩ := u
  subst hregs hmem
  cases o with
  | reg r => exact h
  | mem m => exact h

/-! ## Effective addresses (R126) -/

/-- A displacement congruent to a signed number, added modulo 2^32. -/
theorem toNat_add_of_signed {a d : Word} {z : Int} (h : (d.toNat : Int) = z % 2 ^ 32) :
    ((a + d).toNat : Int) = (a.toNat + z) % 2 ^ 32 := by
  rw [BitVec.toNat_add, Int.natCast_emod, Int.natCast_add, h]
  push_cast
  rw [Int.add_emod_emod]

theorem toNat_eq_toInt_emod (d : Word) : (d.toNat : Int) = d.toInt % 2 ^ 32 := by
  have hd := d.isLt
  rw [BitVec.toInt_eq_toNat_cond]
  split <;> omega

theorem toNat_sext32_eq_toInt_emod (d : Byte) : ((sext32 d).toNat : Int) = d.toInt % 2 ^ 32 := by
  rw [toNat_eq_toInt_emod, sext32, BitVec.toInt_signExtend_of_le (by decide)]

/-- Settles O34: each displacement is the signed number it is read as, modulo 2^32. -/
theorem effectiveAddressIsBasePlusDisplacement : Obligations.EffectiveAddressIsBasePlusDisplacement := by
  unfold Obligations.EffectiveAddressIsBasePlusDisplacement
  exact fun s r d8 d32 => ⟨rfl, rfl, toNat_add_of_signed (toNat_sext32_eq_toInt_emod d8),
    toNat_add_of_signed (toNat_eq_toInt_emod d32)⟩

end Sys2Proof.Proofs.Operands

/-! PROOFS. Arithmetic and compare (41_arith_flags.md R150 to R158). -/

namespace Sys2Proof.Proofs.Arith

open Sys2Proof Sys2Proof.Machine Sys2Proof.Proofs.Operands

/-- An operand replaced by a function of its value (the common form of R151, R156, R158). -/
theorem updateRm32_completes {s : State} {dst : RM32} (f : Word → Word) (len : Nat) (hw : s.memory.wf = true)
    (h : Rm32InMemory s dst) :
    ∃ t, updateRm32 s dst f len = .next t ∧ Rm32Becomes dst (f (rm32Value s dst)) s t ∧ SameFlags s t ∧ SameOutside s t ∧
      t.eip = s.eip + BitVec.ofNat 32 len := by
  obtain ⟨t, hset, ⟨heip, hflags, hout, _⟩, hbecomes⟩ := setRm32_ok (f (rm32Value s dst)) hw h
  refine ⟨t.advance len, ?_, rm32Becomes_congr rfl rfl hbecomes, hflags, hout, ?_⟩
  · simp only [updateRm32, getRm32_ok h, bind, Except.bind, hset, complete_ok]
  · rw [State.advance_eip, State.nextEip, heip]

/-- Settles O35: the three forms of `updateRm32`. -/
theorem addAndIncUpdateTheirOperandWithoutFlags : Obligations.AddAndIncUpdateTheirOperandWithoutFlags := by
  unfold Obligations.AddAndIncUpdateTheirOperandWithoutFlags
  intro s dst src imm i v len hw h hi
  simp only [List.mem_cons, List.not_mem_nil, or_false, Prod.mk.injEq] at hi
  obtain ⟨rfl, rfl, rfl⟩ | ⟨rfl, rfl, rfl⟩ | ⟨rfl, rfl, rfl⟩ := hi
  · exact updateRm32_completes (fun a => add32 a (s.reg src)) _ hw h
  · exact updateRm32_completes (fun a => add32 a (sext32 imm)) _ hw h
  · exact updateRm32_completes inc32 _ hw h

/-- The flags after a subtraction mean what R150 says. -/
theorem flagsOfSub_of_eflags {a b : Word} {s t : State} (h : t.eflags = flagsAfterSub s.eflags a b (sub64 a b)) :
    FlagsOfSub a b s t := by
  have hflag : ∀ k, t.flag k = isSet (flagsAfterSub s.eflags a b (sub64 a b)) k := fun k => by rw [State.flag, h]
  refine ⟨?_, ?_, ?_, ?_, by rw [h, flagsAfterSub_reserved]⟩ <;> rw [hflag, isSet_flagsAfterSub]
  · exact subCarry_iff a b
  · exact subZero_iff a b
  · exact subSign_iff a b
  · exact subOverflow_iff a b

/-- Settles O36: the operand is written, then the flags. -/
theorem subUpdatesItsOperandAndTheFlags : Obligations.SubUpdatesItsOperandAndTheFlags := by
  unfold Obligations.SubUpdatesItsOperandAndTheFlags
  intro s dst imm hw h
  obtain ⟨t, hset, ⟨heip, hflags, hout, _⟩, hbecomes⟩ := setRm32_ok (rm32Value s dst - sext32 imm) hw h
  refine ⟨(updateFlagsSub t (rm32Value s dst) (sext32 imm)).advance (1 + dst.mlen + 1), ?_,
    rm32Becomes_congr rfl rfl hbecomes, flagsOfSub_of_eflags ?_, hout, ?_⟩
  · simp only [exec, execSubRm32Imm8, getRm32_ok h, bind, Except.bind, sub64_low, hset, complete_ok]
  · rw [State.advance_eflags, updateFlagsSub_eflags, hflags]; rfl
  · rw [State.advance_eip, State.nextEip, updateFlagsSub_eip, heip]

/-- A compare of two values leaves their flags and passes to the next instruction. -/
theorem compare_frame (s : State) (a b : Word) (len : Nat) :
    FlagsOfSub a b s ((updateFlagsSub s a b).advance len) ∧ SameRegsBut [] s ((updateFlagsSub s a b).advance len) ∧
    SameMemory s ((updateFlagsSub s a b).advance len) ∧ SameOutside s ((updateFlagsSub s a b).advance len) ∧
    ((updateFlagsSub s a b).advance len).eip = s.eip + BitVec.ofNat 32 len :=
  ⟨flagsOfSub_of_eflags rfl, fun _ _ => rfl, sameMemory_of_eq rfl, ⟨rfl, rfl, rfl, rfl, rfl⟩, rfl⟩

/-- Settles O37: the three compares. -/
theorem compareWritesOnlyTheFlags : Obligations.CompareWritesOnlyTheFlags := by
  unfold Obligations.CompareWritesOnlyTheFlags
  intro s r o imm8 imm32 i a b len h hi
  simp only [List.mem_cons, List.not_mem_nil, or_false, Prod.mk.injEq] at hi
  obtain ⟨rfl, rfl, rfl, rfl⟩ | ⟨rfl, rfl, rfl, rfl⟩ | ⟨rfl, rfl, rfl, rfl⟩ := hi
  · exact ⟨_, by simp only [exec, execCmpR32Rm32, getRm32_ok h, bind, Except.bind, complete_ok], compare_frame s _ _ _⟩
  · exact ⟨_, rfl, compare_frame s _ _ _⟩
  · exact ⟨_, rfl, compare_frame s _ _ _⟩

/-- Settles O38: one register is written. -/
theorem incRegisterAddsOneWithoutFlags : Obligations.IncRegisterAddsOneWithoutFlags := by
  unfold Obligations.IncRegisterAddsOneWithoutFlags
  exact fun s r => ⟨_, rfl, reg_setReg_same s r _, sameRegsBut_setReg s r _, sameMemory_of_eq rfl, rfl,
    ⟨rfl, rfl, rfl, rfl, rfl⟩, rfl⟩

end Sys2Proof.Proofs.Arith

/-! PROOFS. Data movement (42_data_movement.md R170 to R176). -/

namespace Sys2Proof.Proofs.Mov

open Sys2Proof Sys2Proof.Machine Sys2Proof.Proofs.Operands

/-- A store to a 32-bit operand, and the next instruction. -/
theorem storeRm32_completes {s : State} {dst : RM32} (v : Word) (len : Nat) (hw : s.memory.wf = true) (h : Rm32InMemory s dst) :
    ∃ t, complete s (setRm32 s dst v >>= fun t => .ok (t.advance len)) = .next t ∧ Rm32Becomes dst v s t ∧ SameFlags s t ∧
      SameOutside s t ∧ t.eip = s.eip + BitVec.ofNat 32 len := by
  obtain ⟨t, hset, ⟨heip, hflags, hout, _⟩, hbecomes⟩ := setRm32_ok v hw h
  refine ⟨t.advance len, by rw [hset]; rfl, rm32Becomes_congr rfl rfl hbecomes, hflags, hout, ?_⟩
  rw [State.advance_eip, State.nextEip, heip]

/-- Settles O39: two stores of a word. -/
theorem movStoresAWord : Obligations.MovStoresAWord := by
  unfold Obligations.MovStoresAWord
  intro s dst src ext imm i v len hw h hi
  simp only [List.mem_cons, List.not_mem_nil, or_false, Prod.mk.injEq] at hi
  obtain ⟨rfl, rfl, rfl⟩ | ⟨rfl, rfl, rfl⟩ := hi
  · exact storeRm32_completes (s.reg src) _ hw h
  · exact storeRm32_completes v _ hw h

/-- Settles O40: a store of a byte, and the next instruction. -/
theorem movStoresAByte : Obligations.MovStoresAByte := by
  unfold Obligations.MovStoresAByte
  intro s dst src hw h
  obtain ⟨t, hset, ⟨heip, hflags, hout, _⟩, hbecomes⟩ := setRm8_ok (s.reg8 src) hw h
  refine ⟨t.advance (1 + dst.mlen), ?_, rm8Becomes_congr rfl rfl hbecomes, hflags, hout, ?_⟩
  · simp only [exec, execMovRm8R8, hset, bind, Except.bind, complete_ok]
  · rw [State.advance_eip, State.nextEip, heip]

/-- A load of a register, and the next instruction. -/
theorem loadReg_frame (s : State) (dst : Reg) (v : Word) (len : Nat) :
    ((s.setReg dst v).advance len).reg dst = v ∧ SameRegsBut [dst] s ((s.setReg dst v).advance len) ∧
    SameMemory s ((s.setReg dst v).advance len) ∧ SameFlags s ((s.setReg dst v).advance len) ∧
    SameOutside s ((s.setReg dst v).advance len) ∧ ((s.setReg dst v).advance len).eip = s.eip + BitVec.ofNat 32 len :=
  ⟨reg_setReg_same s dst v, sameRegsBut_setReg s dst v, sameMemory_of_eq rfl, rfl, ⟨rfl, rfl, rfl, rfl, rfl⟩, rfl⟩

/-- Settles O41: the operand's value, or the immediate, is loaded. -/
theorem movLoadsARegister : Obligations.MovLoadsARegister := by
  unfold Obligations.MovLoadsARegister
  intro s dst src imm i v len h hi
  simp only [List.mem_cons, List.not_mem_nil, or_false, Prod.mk.injEq] at hi
  obtain ⟨rfl, rfl, rfl⟩ | ⟨rfl, rfl, rfl⟩ := hi
  · exact ⟨_, by simp only [exec, execMovR32Rm32, getRm32_ok h, bind, Except.bind, complete_ok], loadReg_frame s _ _ _⟩
  · exact ⟨_, rfl, loadReg_frame s _ _ _⟩

/-- A load of an 8-bit register, and the next instruction. -/
theorem loadReg8_frame (s : State) (dst : Reg8) (v : Byte) (len : Nat) :
    Reg8Becomes dst v s ((s.setReg8 dst v).advance len) ∧ SameMemory s ((s.setReg8 dst v).advance len) ∧
    SameFlags s ((s.setReg8 dst v).advance len) ∧ SameOutside s ((s.setReg8 dst v).advance len) ∧
    ((s.setReg8 dst v).advance len).eip = s.eip + BitVec.ofNat 32 len :=
  ⟨reg8Becomes_setReg8 s dst v, sameMemory_of_eq rfl, rfl, ⟨rfl, rfl, rfl, rfl, rfl⟩, rfl⟩

/-- Settles O42: the operand's value, or the immediate, is loaded. -/
theorem movLoadsAnAlias : Obligations.MovLoadsAnAlias := by
  unfold Obligations.MovLoadsAnAlias
  intro s dst src imm i v len h hi
  simp only [List.mem_cons, List.not_mem_nil, or_false, Prod.mk.injEq] at hi
  obtain ⟨rfl, rfl, rfl⟩ | ⟨rfl, rfl, rfl⟩ := hi
  · exact ⟨_, by simp only [exec, execMovR8Rm8, getRm8_ok h, bind, Except.bind, complete_ok], loadReg8_frame s _ _ _⟩
  · exact ⟨_, rfl, loadReg8_frame s _ _ _⟩

end Sys2Proof.Proofs.Mov

/-! PROOFS. The stack, calls and returns (43_stack.md, 44_control_flow.md R223, R224). -/

namespace Sys2Proof.Proofs.Stack

open Sys2Proof Sys2Proof.Machine Sys2Proof.Proofs.Operands

/-! ## Accesses within memory and beyond it (R130) -/

/-- The state after a push: the word stored, then ESP set. -/
def pushed (s : State) (v : Word) : State :=
  (s.setMemory (s.memory.setWord s.pushAddr.toNat v)).setReg .esp s.pushAddr

/-- The state after a pop: ESP past the popped word. -/
def popped (s : State) : State := s.setReg .esp (s.reg .esp + 4#32)

theorem push32_ok {s : State} (v : Word) (h : s.pushAddr.toNat + 4 ≤ s.memory.size) : push32 s v = .ok (pushed s v) := by
  rcases push32_cases s v with ⟨_, e⟩ | ⟨hout, _⟩
  · exact e
  · exact absurd h (Nat.not_le_of_lt hout)

theorem push32_error {s : State} (v : Word) (h : s.memory.size < s.pushAddr.toNat + 4) :
    push32 s v = .error (.outOfBounds s.pushAddr.toNat) := by
  rcases push32_cases s v with ⟨hin, _⟩ | ⟨_, e⟩
  · exact absurd hin (Nat.not_le_of_lt h)
  · exact e

theorem pop32_ok {s : State} (h : (s.reg .esp).toNat + 4 ≤ s.memory.size) :
    pop32 s = .ok (s.memory.word (s.reg .esp).toNat, popped s) := by
  rcases pop32_cases s with ⟨_, e⟩ | ⟨hout, _⟩
  · exact e
  · exact absurd h (Nat.not_le_of_lt hout)

theorem pop32_error {s : State} (h : s.memory.size < (s.reg .esp).toNat + 4) :
    pop32 s = .error (.outOfBounds (s.reg .esp).toNat) := by
  rcases pop32_cases s with ⟨hin, _⟩ | ⟨_, e⟩
  · exact absurd hin (Nat.not_le_of_lt h)
  · exact e

/-- Settles O58: the one stack access of each form fails. -/
theorem stackBeyondMemoryHalts : Obligations.StackBeyondMemoryHalts := by
  unfold Obligations.StackBeyondMemoryHalts
  intro s r imm8 imm32 rel i
  refine ⟨fun h hi => ?_, fun h hi => ?_, fun h hi => ?_⟩
  · have hpush := fun v => push32_error (s := s) v h
    simp only [List.mem_cons, List.not_mem_nil, or_false] at hi
    obtain rfl | rfl | rfl | rfl := hi
    · simp only [exec, execPushR32, pushThenAdvance, hpush]; rfl
    · simp only [exec, execPushImm32, pushThenAdvance, hpush]; rfl
    · simp only [exec, execPushImm8, pushThenAdvance, hpush]; rfl
    · simp only [exec, execCallRel32, hpush]; rfl
  · simp only [List.mem_cons, List.not_mem_nil, or_false] at hi
    obtain rfl | rfl := hi
    · simp only [exec, execPopR32, pop32_error h]; rfl
    · simp only [exec, execRet, pop32_error h]; rfl
  · subst hi
    simp only [exec, execLeave, Memory.read32_error _ _ h]; rfl

/-! ## Pushes and pops -/

/-- What a push leaves unchanged, and where its word is. -/
theorem pushed_frame {s : State} (v : Word) (hw : s.memory.wf = true) (h : s.pushAddr.toNat + 4 ≤ s.memory.size) :
    WordStored s.pushAddr.toNat v s (pushed s v) ∧ (pushed s v).reg .esp = s.pushAddr ∧ SameRegsBut [.esp] s (pushed s v) ∧
    SameFlags s (pushed s v) ∧ SameOutside s (pushed s v) :=
  ⟨wordStored_setMemory s _ v hw h, reg_setReg_same _ _ _, sameRegsBut_setReg _ _ _, rfl, ⟨rfl, rfl, rfl, rfl, rfl⟩⟩

theorem pushThenAdvance_completes {s : State} (v : Word) (len : Nat) (hw : s.memory.wf = true)
    (h : s.pushAddr.toNat + 4 ≤ s.memory.size) :
    ∃ t, pushThenAdvance s v len = .next t ∧ WordStored s.pushAddr.toNat v s t ∧ t.reg .esp = s.pushAddr ∧
      SameRegsBut [.esp] s t ∧ SameFlags s t ∧ SameOutside s t ∧ t.eip = s.eip + BitVec.ofNat 32 len := by
  obtain ⟨hstored, hesp, hregs, hflags, hout⟩ := pushed_frame v hw h
  refine ⟨(pushed s v).advance len, ?_, hstored, hesp, hregs, hflags, hout, rfl⟩
  simp only [pushThenAdvance, push32_ok v h, bind, Except.bind, complete_ok]

/-- Settles O43: the three forms of `pushThenAdvance`. -/
theorem pushStoresTheValueBelowEsp : Obligations.PushStoresTheValueBelowEsp := by
  unfold Obligations.PushStoresTheValueBelowEsp
  intro s r imm8 imm32 i v len hw h hi
  simp only [List.mem_cons, List.not_mem_nil, or_false, Prod.mk.injEq] at hi
  obtain ⟨rfl, rfl, rfl⟩ | ⟨rfl, rfl, rfl⟩ | ⟨rfl, rfl, rfl⟩ := hi
  · exact pushThenAdvance_completes _ _ hw h
  · exact pushThenAdvance_completes _ _ hw h
  · exact pushThenAdvance_completes _ _ hw h

/-- Two registers written, the first one last. -/
theorem sameRegsBut_two (s : State) (r q : Reg) (v w : Word) : SameRegsBut [r, q] s ((s.setReg q w).setReg r v) := by
  intro p hp
  obtain ⟨hr, hq⟩ : p ≠ r ∧ p ≠ q := by simpa using hp
  rw [reg_setReg_other hr, reg_setReg_other hq]

/-- Settles O44: ESP is written first, then the register. -/
theorem popLoadsTheWordAtEsp : Obligations.PopLoadsTheWordAtEsp := by
  unfold Obligations.PopLoadsTheWordAtEsp
  intro s r h
  refine ⟨((popped s).setReg r (s.memory.word (s.reg .esp).toNat)).advance 1, ?_, reg_setReg_same _ _ _, fun hr => ?_,
    sameRegsBut_two s r .esp _ _, sameMemory_of_eq rfl, rfl, ⟨rfl, rfl, rfl, rfl, rfl⟩, rfl⟩
  · simp only [exec, execPopR32, pop32_ok h, bind, Except.bind, complete_ok]
  · rw [State.reg_advance, reg_setReg_other (Ne.symm hr), popped, reg_setReg_same]

/-- Settles O45: EBP is written first, then ESP, both from the old EBP. -/
theorem leaveRestoresTheFrame : Obligations.LeaveRestoresTheFrame := by
  unfold Obligations.LeaveRestoresTheFrame
  intro s h
  refine ⟨((s.setReg .ebp (s.memory.word (s.reg .ebp).toNat)).setReg .esp (s.reg .ebp + 4#32)).advance 1, ?_, ?_,
    reg_setReg_same (s.setReg .ebp _) .esp _, fun p hp => ?_, sameMemory_of_eq rfl, rfl, ⟨rfl, rfl, rfl, rfl, rfl⟩, rfl⟩
  · simp only [exec, execLeave, Memory.read32_ok _ _ h, bind, Except.bind, complete_ok]
  · rw [State.reg_advance, reg_setReg_other (by decide), reg_setReg_same]
  · exact sameRegsBut_two s .esp .ebp _ _ p (by simpa [and_comm] using hp)

/-! ## The stack laws (R195, R224) -/

/-- A stored word is the word that stands there. -/
theorem word_of_wordStored {a : Nat} {v : Word} {s t : State} (h : WordStored a v s t) : t.memory.word a = v := by
  obtain ⟨hbytes, _⟩ := h
  have h0 : t.memory.byte a = byteOf v 0 := hbytes 0 (by decide)
  rw [Memory.word, h0, hbytes 1 (by decide), hbytes 2 (by decide), hbytes 3 (by decide), le32_byteOf]

theorem sameOutside_trans {s t u : State} (h : SameOutside s t) (h' : SameOutside t u) : SameOutside s u := by
  obtain ⟨h1, h2, h3, h4, h5⟩ := h
  obtain ⟨g1, g2, g3, g4, g5⟩ := h'
  exact ⟨g1.trans h1, g2.trans h2, g3.trans h3, g4.trans h4, g5.trans h5⟩

/-- After a push, the word at ESP is the pushed one, it lies within memory, and adding 4 to ESP undoes the push. -/
theorem stack_top_after_push {a : Word} {v : Word} {s t : State} (hin : (a - 4#32).toNat + 4 ≤ s.memory.size)
    (hstored : WordStored (a - 4#32).toNat v s t) (hesp : t.reg .esp = a - 4#32) :
    (t.reg .esp).toNat + 4 ≤ t.memory.size ∧ t.memory.word (t.reg .esp).toNat = v ∧ t.reg .esp + 4#32 = a := by
  have hword := word_of_wordStored hstored
  obtain ⟨_, hsize, _⟩ := hstored
  rw [hesp, hsize]
  exact ⟨hin, hword, BitVec.sub_add_cancel a 4#32⟩

/-- Settles O46: the pop of O44 in the state of O43. -/
theorem pushThenPopGivesTheValueBack : Obligations.PushThenPopGivesTheValueBack := by
  unfold Obligations.PushThenPopGivesTheValueBack
  intro s v r hw h hr
  obtain ⟨t, hpush, hstored, hesp, hregs, hflags, hout, _⟩ :=
    pushStoresTheValueBelowEsp s r 0#8 v (.pushImm32 v) v 5 hw h (by simp)
  obtain ⟨hin, hword, hback⟩ := stack_top_after_push h hstored hesp
  obtain ⟨u, hpop, hval, hesp', hregs', _, hflags', hout', _⟩ := popLoadsTheWordAtEsp t r hin
  refine ⟨t, u, hpush, hpop, hval.trans hword, (hesp' hr).trans hback, fun q hq => ?_, hflags'.trans hflags,
    sameOutside_trans hout hout'⟩
  by_cases hqe : q = .esp
  · subst hqe
    exact (hesp' hr).trans hback
  · rw [hregs' q (by simpa [hqe] using hq), hregs q (by simpa using hqe)]

/-- Settles O50: the address of the next instruction is taken before the push, which keeps EIP. -/
theorem callPushesTheReturnAddress : Obligations.CallPushesTheReturnAddress := by
  unfold Obligations.CallPushesTheReturnAddress
  intro s rel hw h
  obtain ⟨hstored, hesp, hregs, hflags, hout⟩ := pushed_frame (s.nextEip 5) hw h
  refine ⟨(pushed s (s.nextEip 5)).jumpRel 5 rel, ?_, hstored, hesp, hregs, hflags, hout, rfl⟩
  simp only [exec, execCallRel32, push32_ok (s.nextEip 5) h, bind, Except.bind, complete_ok]

/-- Settles O51: ESP is written, then EIP. -/
theorem retGoesToTheWordAtEsp : Obligations.RetGoesToTheWordAtEsp := by
  unfold Obligations.RetGoesToTheWordAtEsp
  intro s h
  refine ⟨(popped s).setEip (s.memory.word (s.reg .esp).toNat), ?_, rfl, reg_setReg_same s .esp _,
    sameRegsBut_setReg s .esp _, sameMemory_of_eq rfl, rfl, ⟨rfl, rfl, rfl, rfl, rfl⟩⟩
  simp only [exec, execRet, pop32_ok h, bind, Except.bind, complete_ok]

/-- Settles O52: the return of O51 in the state of O50. -/
theorem retUndoesACall : Obligations.RetUndoesACall := by
  unfold Obligations.RetUndoesACall
  intro s rel hw h
  obtain ⟨t, hcall, hstored, hesp, hregs, hflags, hout, _⟩ := callPushesTheReturnAddress s rel hw h
  obtain ⟨hin, hword, hback⟩ := stack_top_after_push h hstored hesp
  obtain ⟨u, hret, heip, hesp', hregs', _, hflags', hout'⟩ := retGoesToTheWordAtEsp t hin
  refine ⟨t, u, hcall, hret, heip.trans hword, fun q _ => ?_, hflags'.trans hflags, sameOutside_trans hout hout'⟩
  by_cases hqe : q = .esp
  · subst hqe
    exact hesp'.trans hback
  · rw [hregs' q (by simpa using hqe), hregs q (by simpa using hqe)]

end Sys2Proof.Proofs.Stack

/-! PROOFS. Jumps (44_control_flow.md R210 to R222, 41_arith_flags.md R160). -/

namespace Sys2Proof.Proofs.Jumps

open Sys2Proof Sys2Proof.Machine Sys2Proof.Proofs.Operands

/-- A conditional jump is `branchIf` on its condition (R210). -/
theorem exec_conditionalJump {s : State} {rel : Byte} {i : Instr} {c : Prop} (h : (i, c) ∈ jumpConditions rel s) :
    ∃ b : Bool, exec i s = branchIf b rel s ∧ (b = true ↔ c) := by
  simp only [jumpConditions, List.mem_cons, List.not_mem_nil, or_false, Prod.mk.injEq] at h
  obtain ⟨rfl, rfl⟩ | ⟨rfl, rfl⟩ | ⟨rfl, rfl⟩ | ⟨rfl, rfl⟩ | ⟨rfl, rfl⟩ | ⟨rfl, rfl⟩ | ⟨rfl, rfl⟩ | ⟨rfl, rfl⟩ | ⟨rfl, rfl⟩ |
    ⟨rfl, rfl⟩ := h
  · exact ⟨condO s, rfl, Iff.rfl⟩
  · exact ⟨condNO s, rfl, by simp [condNO]⟩
  · exact ⟨condC s, rfl, Iff.rfl⟩
  · exact ⟨condNC s, rfl, by simp [condNC]⟩
  · exact ⟨condZ s, rfl, Iff.rfl⟩
  · exact ⟨condNZ s, rfl, by simp [condNZ]⟩
  · exact ⟨condS s, rfl, Iff.rfl⟩
  · exact ⟨condNS s, rfl, by simp [condNS]⟩
  · exact ⟨condL s, rfl, by simp [condL]⟩
  · exact ⟨condLE s, rfl, by simp [condLE]⟩

/-- Settles O47: the two outcomes of `branchIf`. -/
theorem conditionalJumpsFollowTheirCondition : Obligations.ConditionalJumpsFollowTheirCondition := by
  unfold Obligations.ConditionalJumpsFollowTheirCondition
  intro s rel i c h
  obtain ⟨b, he, hb⟩ := exec_conditionalJump h
  cases b with
  | true =>
    have hc : c := hb.mp rfl
    exact ⟨s.jumpRel 2 (sext32 rel), he, fun _ => rfl, fun hn => absurd hc hn, fun _ _ => rfl, sameMemory_of_eq rfl, rfl,
      ⟨rfl, rfl, rfl, rfl, rfl⟩⟩
  | false =>
    have hc : ¬ c := fun hc => Bool.false_ne_true (hb.mpr hc)
    exact ⟨s.advance 2, he, fun hy => absurd hy hc, fun _ => rfl, fun _ _ => rfl, sameMemory_of_eq rfl, rfl,
      ⟨rfl, rfl, rfl, rfl, rfl⟩⟩

/-- The complemented Sign flag differs from Overflow exactly when `a` is at least `b`, as signed numbers. -/
theorem signed_le_iff (a b : Word) :
    b.toInt ≤ a.toInt ↔ ¬ ((a - b).msb = false ↔ a.toInt - b.toInt < -2 ^ 31 ∨ 2 ^ 31 ≤ a.toInt - b.toInt) := by
  have ha := a.isLt
  have hb := b.isLt
  rw [BitVec.msb_eq_decide, decide_eq_false_iff_not, BitVec.toInt_eq_toNat_cond, BitVec.toInt_eq_toNat_cond, BitVec.toNat_sub]
  split_ifs <;> omega

/-- What the six conditions say of the two compared values (R160). -/
theorem jumpConditions_after_compare {a b : Word} {s t : State} (h : FlagsOfSub a b s t) :
    (t.flag .sign ≠ t.flag .overflow ↔ b.toInt ≤ a.toInt) ∧
    (t.flag .zero = true ∨ t.flag .sign ≠ t.flag .overflow ↔ b.toInt ≤ a.toInt) ∧
    (t.flag .sign = false ↔ (a - b).msb = true) := by
  obtain ⟨_, hzero, hsign, hover, _⟩ := h
  have hl : t.flag .sign ≠ t.flag .overflow ↔ b.toInt ≤ a.toInt := by
    rw [signed_le_iff, ← hsign, ← hover, ← Bool.eq_iff_iff]
  refine ⟨hl, ?_, ?_⟩
  · rw [hl, hzero]
    exact ⟨fun hor => hor.elim (fun he => he ▸ le_refl _) id, .inr⟩
  · rw [← Bool.not_eq_true, hsign, Bool.not_eq_false]

/-- Settles O48: the compare of O37, then the jump of O47, its condition read in the compared values. -/
theorem jumpsAfterACompare : Obligations.JumpsAfterACompare := by
  unfold Obligations.JumpsAfterACompare
  intro s t r o rel hin hcmp i c hi
  obtain ⟨t', hcmp', hflags, _⟩ :=
    Arith.compareWritesOnlyTheFlags s r o 0#8 0#32 (.cmpR32Rm32 r o) _ _ _ hin (List.mem_cons_self ..)
  cases hcmp.symm.trans hcmp'
  obtain ⟨hl, hle, hns⟩ := jumpConditions_after_compare hflags
  obtain ⟨hcarry, hzero, hsign, _⟩ := hflags
  have hjump : ∀ c', (i, c') ∈ jumpConditions rel t → (c' ↔ c) →
      ∃ u, exec i t = .next u ∧ (c → u.eip = t.eip + 2#32 + rel.signExtend 32) ∧ (¬ c → u.eip = t.eip + 2#32) := by
    intro c' hmem hiff
    obtain ⟨u, he, hyes, hno, _⟩ := conditionalJumpsFollowTheirCondition t rel i c' hmem
    exact ⟨u, he, fun hc => hyes (hiff.mpr hc), fun hc => hno (mt hiff.mp hc)⟩
  simp only [List.mem_cons, List.not_mem_nil, or_false, Prod.mk.injEq] at hi
  obtain ⟨rfl, rfl⟩ | ⟨rfl, rfl⟩ | ⟨rfl, rfl⟩ | ⟨rfl, rfl⟩ | ⟨rfl, rfl⟩ | ⟨rfl, rfl⟩ := hi
  · exact hjump _ (by simp [jumpConditions]) hl
  · exact hjump _ (by simp [jumpConditions]) hle
  · exact hjump _ (by simp [jumpConditions]) hsign
  · exact hjump _ (by simp [jumpConditions]) hns
  · exact hjump _ (by simp [jumpConditions]) hcarry
  · exact hjump _ (by simp [jumpConditions]) hzero

/-- Settles O49: both forms are `jumpRel`. -/
theorem jumpsGoToTheirTarget : Obligations.JumpsGoToTheirTarget := by
  unfold Obligations.JumpsGoToTheirTarget
  intro s rel32 rel8 i target hi
  simp only [List.mem_cons, List.not_mem_nil, or_false, Prod.mk.injEq] at hi
  obtain ⟨rfl, rfl⟩ | ⟨rfl, rfl⟩ := hi <;>
    exact ⟨_, rfl, rfl, fun _ _ => rfl, sameMemory_of_eq rfl, rfl, ⟨rfl, rfl, rfl, rfl, rfl⟩⟩

end Sys2Proof.Proofs.Jumps

/-! PROOFS. Software interrupt and port I/O (45_io_interrupt.md R240 to R246). -/

namespace Sys2Proof.Proofs.Io

open Sys2Proof Sys2Proof.Machine Sys2Proof.Proofs.Operands

/-! ## The BIOS layer, case by case (R241, R246) -/

theorem biosCall_teletype {s : State} {vector : Byte} (hv : vector = Config.biosVideoVector)
    (hf : s.reg8 .ah = Config.teletypeFn) :
    biosCall vector s = s.emit (.teletype (s.reg8 .al) ((s.reg8 .bl).extractLsb' 0 4)) := by
  rw [biosCall, if_pos hv, biosVideo, if_pos hf]

theorem biosCall_unknownFunction {s : State} {vector : Byte} (hv : vector = Config.biosVideoVector)
    (hf : s.reg8 .ah ≠ Config.teletypeFn) : biosCall vector s = s.emit (.reportUnknownVideoFunction (s.reg8 .ah)) := by
  rw [biosCall, if_pos hv, biosVideo, if_neg hf]

theorem biosCall_unknownVector {s : State} {vector : Byte} (hv : vector ≠ Config.biosVideoVector) :
    biosCall vector s = s.emit (.reportUnknownInterrupt vector) := by
  rw [biosCall, if_neg hv]

theorem execInt_emits {s : State} {vector : Byte} {e : Event} (h : biosCall vector s = s.emit e) :
    exec (.int vector) s = .next { s with eip := s.eip + 2#32, events := s.events ++ [e] } := by
  rw [exec, execInt, h]
  rfl

/-- Settles O53: the three cases of the BIOS layer. -/
theorem intEmitsOneEventAndFallsThrough : Obligations.IntEmitsOneEventAndFallsThrough := by
  unfold Obligations.IntEmitsOneEventAndFallsThrough
  intro s vector
  by_cases hv : vector = 0x10#8
  · by_cases hf : s.reg8 .ah = 0x0E#8
    · exact ⟨_, _, execInt_emits (biosCall_teletype hv hf), rfl, fun _ _ => rfl, fun _ h => absurd hf h, fun h => absurd hv h⟩
    · exact ⟨_, _, execInt_emits (biosCall_unknownFunction hv hf), rfl, fun _ h => absurd h hf, fun _ _ => rfl,
        fun h => absurd hv h⟩
  · exact ⟨_, _, execInt_emits (biosCall_unknownVector hv), rfl, fun h => absurd h hv, fun h => absurd h hv, fun _ => rfl⟩

/-! ## IN and OUT (R242 to R245) -/

/-- IN from the serial port, once the source has answered with `v`. -/
theorem execIn_completes {s : State} {v : Byte} {lines : List (List Nat)} {n : Nat} (hport : s.port = 0x03F8#16)
    (h : ioIn8 s = some (v, { s with input := { s.input with lines := lines }, freeIndex := n })) :
    ∃ t, exec .inAlDx s = .next t ∧ Reg8Becomes .al v s t ∧ t.input = { s.input with lines := lines } ∧ t.freeIndex = n ∧
      t.eip = s.eip + 1#32 ∧ SameMemory s t ∧ SameFlags s t ∧ t.runState = s.runState ∧ t.quiet = s.quiet ∧
      t.events = s.events := by
  have hport' : s.port = Config.serialPort := hport
  refine ⟨{ (s.setReg8 .al v).advance 1 with input := { s.input with lines := lines }, freeIndex := n }, ?_,
    reg8Becomes_setReg8 s .al v, rfl, rfl, rfl, sameMemory_of_eq rfl, rfl, rfl, rfl, rfl⟩
  simp only [exec, execInAlDx, hport', if_true, h]
  rfl

/-- Settles O54: the line the source answers with, or none, case by case. -/
theorem inReadsTheNextLineIntoAl : Obligations.InReadsTheNextLineIntoAl := by
  unfold Obligations.InReadsTheNextLineIntoAl
  intro s v rest n hport h
  refine execIn_completes hport ?_
  obtain ⟨c, cs, hl, hc, rfl, rfl⟩ | ⟨c, cs, hl, hc, rfl, rfl⟩ | ⟨hl, rfl, rfl⟩ | ⟨hl, rfl, ha, rfl, rfl⟩ := h
  · simp only [ioIn8, hl, lineByte, if_pos hc]; rfl
  · simp only [ioIn8, hl, lineByte, if_neg (Nat.not_lt_of_le hc)]; rfl
  · simp only [ioIn8, hl, lineByte]; rfl
  · have hsame : ({ s.input with lines := [] } : InputSource) = s.input := by rw [← hl]
    rw [hsame]
    cases hafter : s.input.after with
    | unknownLines => simp only [ioIn8, hl, hafter]; rfl
    | ended => simp only [ioIn8, hl, hafter]; rfl
    | silent => exact absurd hafter ha

/-- Settles O55: the port is tested first, then the source. -/
theorem inStopsOnUnknownPortAndSilence : Obligations.InStopsOnUnknownPortAndSilence := by
  unfold Obligations.InStopsOnUnknownPortAndSilence
  intro s
  refine ⟨fun hport => if_neg hport, fun hport hl ha => ?_⟩
  have hport' : s.port = Config.serialPort := hport
  simp only [exec, execInAlDx, hport', if_true, ioIn8, hl, ha]

/-- The port number, as a number (R25). -/
theorem port_eq_serial_iff (s : State) : s.port = Config.serialPort ↔ (s.reg .edx).toNat % 2 ^ 16 = 0x3F8 := by
  rw [← BitVec.toNat_inj, State.port, BitVec.extractLsb'_toNat, Nat.shiftRight_zero]
  rfl

/-- Settles O56: the port number decides whether a character is sent. -/
theorem outSendsAlToTheSerialPort : Obligations.OutSendsAlToTheSerialPort := by
  unfold Obligations.OutSendsAlToTheSerialPort
  intro s
  refine ⟨_, rfl, ?_⟩
  by_cases hport : s.port = Config.serialPort
  · rw [ioOut8, if_pos hport, if_pos ((port_eq_serial_iff s).mp hport)]
    rfl
  · rw [ioOut8, if_neg hport, if_neg (mt (port_eq_serial_iff s).mpr hport)]
    rfl

end Sys2Proof.Proofs.Io
